-- ==== Sys2Proof/Word.lean ====
section
/-! DEFINITION. The word types of the IGE chaining engine (00_scope R9, R11): bytes, 64-bit registers, byte sequences. -/

namespace Sys2Proof

/-- An unsigned 8-bit value (R11). -/
abbrev Byte := BitVec 8

/-- A register: a 64-bit unsigned value, bit 63 the most significant (R11). -/
abbrev Word := BitVec 64

/-- A byte sequence, byte 0 first (R11). `Bytes n` of the spec is such a list of length `n`. -/
abbrev Bytes := List Byte

end Sys2Proof
end

