-- ==== Sys2Proof/Config.lean ====
section
/-! DEFINITION. What one implementation fixes (00_scope R7, R8, R10) and the free values behind the spec's
"unspecified" and "any value" (R34, R53, R112, R174). -/

namespace Sys2Proof

/-- The parameters a command depends on: CIPHER = (B, Enc, Dec) of R7 and ALIAS_CHECK of R8. The shared operations
take them as an argument, so that the spec's vectors can be run with its own test ciphers; the machine's meanings are
those operations at `Config.params`. -/
structure Params where
  /-- `B`, the block size in bytes. -/
  blockSize : Nat
  /-- `Enc`, meant for blocks of `B` bytes. -/
  enc : Bytes → Bytes
  /-- `Dec`, meant for blocks of `B` bytes. -/
  dec : Bytes → Bytes
  /-- ALIAS_CHECK: whether a partial overlap of dst and src is detected. -/
  aliasCheck : Bool

/-- The contract of R7: `B >= 1`, `2*B < 2^64`, `Enc` and `Dec` take blocks to blocks, and `Dec(Enc(x)) = x`. -/
structure Params.Lawful (P : Params) : Prop where
  blockSize_pos : 1 ≤ P.blockSize
  iv_fits : 2 * P.blockSize < 2 ^ 64
  enc_length : ∀ x : Bytes, x.length = P.blockSize → (P.enc x).length = P.blockSize
  dec_length : ∀ x : Bytes, x.length = P.blockSize → (P.dec x).length = P.blockSize
  dec_enc : ∀ x : Bytes, x.length = P.blockSize → P.dec (P.enc x) = x

/-- A free index behind the block size: every `B` with `B >= 1` and `2*B < 2^64` is one of its values plus 1
(R7; log 1). -/
opaque Config.blockSizeIndex : Fin 9223372036854775807

/-- `B`, the block size of the attached cipher (R7): open but for `B >= 1` and `2*B < 2^64`. -/
def Config.blockSize : Nat := Config.blockSizeIndex.val + 1

/-- The attached cipher with its key: some bijection of the blocks (R7, R35; R116 says that the law makes `Enc` a
bijection with inverse `Dec`; log 1). -/
opaque Config.cipher : Equiv.Perm (Vector Byte Config.blockSize)

/-- `Enc` on byte sequences: the cipher on a block of `B` bytes. No command calls it on another length (log 8). -/
def Config.enc (x : Bytes) : Bytes :=
  if h : x.length = Config.blockSize then (Config.cipher ⟨x.toArray, h⟩).toList else x

/-- `Dec` on byte sequences: the inverse of `Config.enc` (R7). -/
def Config.dec (x : Bytes) : Bytes :=
  if h : x.length = Config.blockSize then (Config.cipher.symm ⟨x.toArray, h⟩).toList else x

/-- The parameters of this hardware: the attached cipher, and ALIAS_CHECK = true (R8, D9; log 2). -/
def Config.params : Params where
  blockSize := Config.blockSize
  enc := Config.enc
  dec := Config.dec
  aliasCheck := true

/-- The free values: byte `i` of draw `k` is any value (R34, R53, R112, R174; log 5). -/
opaque Config.freeByte : Nat → Nat → Byte

/-- `n` free bytes, all of draw `k`. -/
def Config.freeBytes (k n : Nat) : Bytes := (List.range n).map (Config.freeByte k)

/-- A free number behind N_ENGINES (R10; log 12). -/
opaque Config.furtherEngines : Nat

/-- N_ENGINES >= 1, the number of engines in a system (R10). -/
def Config.nEngines : Nat := Config.furtherEngines + 1

end Sys2Proof
end

