-- ==== Sys2Proof/Syntax.lean ====
section
/-! DEFINITION. The six commands of the opcode table (30_encoding R61), the registers by name (10_state R31) and the
host's command lines (30_encoding R66, R67). -/

namespace Sys2Proof

/-- A command: one row of spec/opcode_table.json each (R61). A command has no immediate and no operand field (R60):
its operands are the operand registers (R63). -/
inductive Instr
  | encInit
  | decInit
  | blocksize
  | transform
  | encOnce
  | decOnce
deriving DecidableEq, Repr

/-- The registers of the register block, by name (R31, R66). -/
inductive Reg
  | cmd
  | status
  | result
  | mode
  | blocks
  | op0
  | op1
  | op2
  | op3
  | op4
  | op5
deriving DecidableEq, Repr

/-- One line of a host program: a primitive action (R66) or a command mnemonic with its operands (R67). Values are
written as naturals; a well-formed line has every value below `2^64` (R66). -/
inductive Line
  | wr (r : Reg) (value : Nat)
  | rd (r : Reg)
  | encInit (iv ivLen : Nat)
  | decInit (iv ivLen : Nat)
  | blocksize
  | transform (dst dstLen src srcLen : Nat)
  | encOnce (dst dstLen src srcLen iv ivLen : Nat)
  | decOnce (dst dstLen src srcLen iv ivLen : Nat)
deriving DecidableEq, Repr

end Sys2Proof
end

