-- ==== Sys2Proof/WellFormed.lean ====
section
/-! DEFINITION. Well-formedness of commands and of host program lines (30_encoding R60, R66). -/

namespace Sys2Proof

/-- A command has no operand field (R60), so every command is well formed. -/
def Instr.wf : Instr → Bool
  | .encInit | .decInit | .blocksize | .transform | .encOnce | .decOnce => true

/-- A value of a host line is an unsigned integer below `2^64` (R66). -/
def valueFits (v : Nat) : Bool := decide (v < 2 ^ 64)

/-- A line is well formed when every value on it is (R66). -/
def Line.wf : Line → Bool
  | .wr _ v => valueFits v
  | .rd _ => true
  | .encInit iv ivLen => valueFits iv && valueFits ivLen
  | .decInit iv ivLen => valueFits iv && valueFits ivLen
  | .blocksize => true
  | .transform dst dstLen src srcLen => valueFits dst && valueFits dstLen && valueFits src && valueFits srcLen
  | .encOnce dst dstLen src srcLen iv ivLen =>
    valueFits dst && valueFits dstLen && valueFits src && valueFits srcLen && valueFits iv && valueFits ivLen
  | .decOnce dst dstLen src srcLen iv ivLen =>
    valueFits dst && valueFits dstLen && valueFits src && valueFits srcLen && valueFits iv && valueFits ivLen

end Sys2Proof
end

