-- ==== Sys2Proof/Decode.lean ====
section
/-! DEFINITION. Decoding and encoding of the 64-bit command word (30_encoding R60 to R62, R65) and the register
offsets (10_state R31). -/

namespace Sys2Proof

/-- Why a word is no command (R62). Both cases take ILLEGAL_COMMAND; the names only say which part was wrong. -/
inductive Reject
  | reservedBits
  | unassignedOpcode (opcode : Nat)
deriving DecidableEq, Repr

/-- OPCODE, bits 7:0 of the command word (R60). -/
def opcodeField (w : Word) : Nat := (w.extractLsb' 0 8).toNat

/-- RSVD, bits 63:8 of the command word (R60). -/
def reservedField (w : Word) : Nat := (w.extractLsb' 8 56).toNat

/-- The opcode map (R61); every other opcode is illegal (R62). -/
def decodeOpcode (n : Nat) : Except Reject Instr :=
  match n with
  | 0x01 => .ok .encInit
  | 0x02 => .ok .decInit
  | 0x03 => .ok .blocksize
  | 0x04 => .ok .transform
  | 0x05 => .ok .encOnce
  | 0x06 => .ok .decOnce
  | k => .error (.unassignedOpcode k)

/-- The decode function of R65: total on every word, reading the word and nothing else. -/
def decode (w : Word) : Except Reject Instr :=
  if reservedField w ≠ 0 then .error .reservedBits else decodeOpcode (opcodeField w)

/-- The opcode of a command (R61). -/
def opcode (i : Instr) : BitVec 8 :=
  match i with
  | .encInit => 0x01
  | .decInit => 0x02
  | .blocksize => 0x03
  | .transform => 0x04
  | .encOnce => 0x05
  | .decOnce => 0x06

/-- The command word of a command: RSVD = 0, OPCODE its opcode (R60, R61). -/
def encode (i : Instr) : Word := (0 : BitVec 56) ++ opcode i

/-- The word the table's row gives: `nbits` bits of `w`, every bit above them 0, in one 64-bit command word (R60). -/
def tableWord (nbits w : Nat) : Word := BitVec.ofNat 64 (w % 2 ^ nbits)

/-- What the decoder reads from a row's word; none where it refuses. -/
def decodeTableWord (nbits w : Nat) : Option Instr :=
  match decode (tableWord nbits w) with
  | .ok i => some i
  | .error _ => none

/-- Byte offsets in the register block (R31). -/
def regOffset (r : Reg) : Nat :=
  match r with
  | .cmd => 0x00
  | .status => 0x08
  | .result => 0x10
  | .mode => 0x18
  | .blocks => 0x20
  | .op0 => 0x28
  | .op1 => 0x30
  | .op2 => 0x38
  | .op3 => 0x40
  | .op4 => 0x48
  | .op5 => 0x50

/-- The register at an offset, if there is one (R31); offsets from 0x58 hold none (R32). -/
def regAt (offset : Nat) : Option Reg :=
  match offset with
  | 0x00 => some .cmd
  | 0x08 => some .status
  | 0x10 => some .result
  | 0x18 => some .mode
  | 0x20 => some .blocks
  | 0x28 => some .op0
  | 0x30 => some .op1
  | 0x38 => some .op2
  | 0x40 => some .op3
  | 0x48 => some .op4
  | 0x50 => some .op5
  | _ => none

end Sys2Proof
end

