-- ==== Sys2Proof/Machine/State.lean ====
section
/-! DEFINITION. The state of one engine, the byte memory it shares with the host, the host's accesses still to come,
and the state after power-on reset (10_state R20 to R34, 20_memory R40, 70_reset_and_hazards R170). -/

namespace Sys2Proof.Machine

/-- MODE, the kind of the chain (R22). The 2-bit value 3 is reserved and no rule writes it, so it has no
constructor (log 7). -/
inductive Mode
  | none
  | enc
  | dec
deriving DecidableEq, Repr

/-- The errors a command can end with (60_exceptions R140); their codes are in Machine/Flags.lean. -/
inductive ErrorCode
  | configuration
  | bufferAlignment
  | bufferSize
  | bufferOverlap
  | notConfigured
  | illegalCommand
  | addressRange
deriving DecidableEq, Repr

/-- The byte memory `M` (R40): address and byte pairs in the canonical form of `Memory.wf` (Machine/Ops.lean). -/
abbrev Memory := List Host.Cell

/-- A range of `len` addresses from `start` (R45). -/
structure Range where
  start : Nat
  len : Nat
deriving DecidableEq, Repr

/-- The addresses other agents read and write while a command runs (R53, R174; log 11). -/
structure Foreign where
  reads : List Range
  writes : List Range
deriving DecidableEq, Repr

/-- What the outside does to the engine and to `M`, one access at a time (R24, R25, R40, R52, R66; log 6). -/
inductive Access
  /-- A write of `width` bits at a byte offset of the register block (R31, R32). -/
  | regWrite (offset width : Nat) (value : Word)
  /-- A read of `width` bits at a byte offset of the register block (R31, R32). -/
  | regRead (offset width : Nat)
  /-- The host writes bytes of `M` from `addr` on (R40, R52, R172). -/
  | memWrite (addr : Nat) (bytes : Bytes)
  /-- The host reads `n` bytes of `M` from `addr` on (R40, R52). -/
  | memRead (addr n : Nat)
  /-- A write of `word` to CMD during which other agents touch memory (R53, R174; log 11). -/
  | racedCommand (word : Word) (foreign : Foreign)
  /-- Power-on reset (R170; log 13). -/
  | powerOn
deriving DecidableEq, Repr

/-- What a read gave the host: a register's value or bytes of `M`. -/
inductive Answer
  | reg (value : Word)
  | mem (bytes : Bytes)
deriving DecidableEq, Repr

/-- The state each engine holds (R20). CMD holds nothing between commands (R25) and the transient context of a
one-shot command exists only inside its step (R33), so neither is a field. -/
structure Engine where
  /-- MODE (R22). -/
  mode : Mode
  /-- PREV_C, the previous ciphertext block, `B` bytes (R21). -/
  prevC : Bytes
  /-- PREV_P, the previous plaintext block, `B` bytes (R21). -/
  prevP : Bytes
  /-- BLOCKS (R23). -/
  blocks : Word
  /-- OP0 (R24). -/
  op0 : Word
  /-- OP1 (R24). -/
  op1 : Word
  /-- OP2 (R24). -/
  op2 : Word
  /-- OP3 (R24). -/
  op3 : Word
  /-- OP4 (R24). -/
  op4 : Word
  /-- OP5 (R24). -/
  op5 : Word
  /-- STATUS: CODE in 7:0, ANY_ERROR in 8, the rest 0 (R26). -/
  status : Word
  /-- RESULT (R27). -/
  result : Word
deriving DecidableEq, Repr

/-- One engine, the memory it shares with the host, and the model's own fields: the count of free values drawn
(log 5), the host's accesses still to come and the answers its reads got (log 6). -/
structure State extends Engine where
  mem : Memory
  free : Nat
  bus : List Access
  answers : List Answer
deriving DecidableEq, Repr

/-- Why the machine stops. The engine itself has no trap (R147, R149). -/
inductive Fault
  /-- Raised by `writeMemory` and `readMemory` (Machine/HostPort.lean) for a host access that names an address outside
  `0` to `2^64 - 1`, where no byte of `M` exists (R40). Safe: such an access is no access to this memory (log 10). -/
  | outsideMemory (addr : Nat)
deriving DecidableEq, Repr

/-- What the model gives no transition. -/
inductive Refusal
  /-- Raised by `exec` for an instruction that has no meaning yet; no arm of this model raises it. Safe. -/
  | notModelled (mnemonic : String)
  /-- Raised by `writeAccess` and `readAccess` (Machine/HostPort.lean) for a register access that is not 64 bits wide
  or not at a multiple of 8: "is not defined, and a model refuses it" (R32). Safe (log 9). -/
  | undefinedAccess (offset width : Nat)
  /-- Raised by `System.access` (Machine/System.lean) for an access to an engine the system does not have (R10, R152):
  the platform's, not the engine's. Safe (log 12). -/
  | noSuchEngine (index : Nat)
deriving DecidableEq, Repr

/-- The registers after power-on reset (R34, R170). PREV_C and PREV_P are "unspecified": draws `k` and `k+1` of the
free values (log 3). -/
def Engine.reset (blockSize k : Nat) : Engine where
  mode := .none
  prevC := Config.freeBytes k blockSize
  prevP := Config.freeBytes (k + 1) blockSize
  blocks := 0
  op0 := 0
  op1 := 0
  op2 := 0
  op3 := 0
  op4 := 0
  op5 := 0
  status := 0
  result := 0

/-- The machine right after reset: the registers of R34, memory with nothing listed (log 4), no access waiting. -/
def State.reset : State where
  toEngine := Engine.reset Config.blockSize 0
  mem := []
  free := 2
  bus := []
  answers := []

end Sys2Proof.Machine
end

