-- ==== Sys2Proof/Machine/Flags.lean ====
section
/-! DEFINITION. STATUS and its fields (10_state R26), the status codes (60_exceptions R140), and the values a command
leaves in STATUS (R143, R146). -/

namespace Sys2Proof.Machine

/-- The code of an error (R140). -/
def errorCode (e : ErrorCode) : BitVec 8 :=
  match e with
  | .configuration => 1
  | .bufferAlignment => 2
  | .bufferSize => 3
  | .bufferOverlap => 4
  | .notConfigured => 5
  | .illegalCommand => 6
  | .addressRange => 7

/-- STATUS.CODE, bits 7:0 (R26). -/
def codeField (status : Word) : BitVec 8 := status.extractLsb' 0 8

/-- STATUS.ANY_ERROR, bit 8 (R26). -/
def anyErrorField (status : Word) : Bool := status.getLsbD 8

/-- STATUS bits 63:9 (R26). -/
def reservedStatus (status : Word) : BitVec 55 := status.extractLsb' 9 55

/-- `STATUS.CODE <- c`: one field written, the others unchanged (R14). -/
def withCode (status : Word) (c : BitVec 8) : Word := status.extractLsb' 8 56 ++ c

/-- `STATUS.ANY_ERROR <- 1` (R14, R146). -/
def withAnyError (status : Word) : Word := status ||| 0x100

/-- STATUS after a command that succeeded: CODE = OK, ANY_ERROR as it was (R26, R146). -/
def statusOk (status : Word) : Word := withCode status 0

/-- STATUS after a command that failed with `e`: its code, and ANY_ERROR = 1 (R143). -/
def statusError (status : Word) (e : ErrorCode) : Word := withAnyError (withCode status (errorCode e))

end Sys2Proof.Machine
end

