-- ==== Sys2Proof/Machine/Operands.lean ====
section
/-! DEFINITION. Byte-sequence operators (00_scope R12), the operand registers as naturals (30_encoding R63, R64) and
the predicates on buffers that the checks read (20_memory R45, 41_transform R104). -/

namespace Sys2Proof.Machine

/-- `a ⊕ b`, byte by byte (R12). Both sides have the same length wherever the spec uses it (log 8). -/
def xorBytes (a b : Bytes) : Bytes := List.zipWith (· ^^^ ·) a b

/-- `s[a ..< b]` (R12). -/
def slice (s : Bytes) (a b : Nat) : Bytes := (s.drop a).take (b - a)

/-- Operand assembly: a register read whole, as an unsigned natural (R64). -/
def operand (r : Word) : Nat := r.toNat

/-- dst address of TRANSFORM, ENC_ONCE and DEC_ONCE: OP0 (R63). -/
def dstAddr (s : State) : Nat := operand s.op0

/-- dst length: OP1 (R63). -/
def dstLen (s : State) : Nat := operand s.op1

/-- src address: OP2 (R63). -/
def srcAddr (s : State) : Nat := operand s.op2

/-- src length: OP3 (R63). -/
def srcLen (s : State) : Nat := operand s.op3

/-- IV address of ENC_INIT and DEC_INIT: OP0 (R63). -/
def initIvAddr (s : State) : Nat := operand s.op0

/-- IV length of ENC_INIT and DEC_INIT: OP1 (R63). -/
def initIvLen (s : State) : Nat := operand s.op1

/-- IV address of ENC_ONCE and DEC_ONCE: OP4 (R63). -/
def onceIvAddr (s : State) : Nat := operand s.op4

/-- IV length of ENC_ONCE and DEC_ONCE: OP5 (R63). -/
def onceIvLen (s : State) : Nat := operand s.op5

/-- In range: `a + n <= 2^64`, computed without wrap (R45). -/
def inRange (a n : Nat) : Bool := decide (a + n ≤ 2 ^ 64)

/-- dst and src overlap without being identical: they share a byte of the written and the read range, and start at
different addresses (R104). -/
def partialOverlap (dst src len : Nat) : Bool :=
  decide (dst ≠ src ∧ dst < src + len ∧ src < dst + len)

/-- The address of block `i` of a buffer at `a` (R42). -/
def blockAddr (blockSize a i : Nat) : Nat := a + i * blockSize

end Sys2Proof.Machine
end

