-- ==== Sys2Proof/Machine/Ops.lean ====
section
/-! DEFINITION. The named operations over memory and registers: the byte memory (20_memory R40, R46), the register
writes the commands are made of, ending a command with an error or with success (60_exceptions R143), the checks with
their order (R144), and power-on reset (70_reset_and_hazards R170). -/

namespace Sys2Proof.Machine

/-- What an address reads as before anything is written there: DESIGN CHOICE 0, unsafe (log 4). -/
def unlistedByte : Byte := 0

/-- The canonical form of a memory: addresses strictly rising and below `2^64` (R40), no entry equal to what an
unlisted address reads as. -/
abbrev Memory.wf (m : Memory) : Prop :=
  m.Pairwise (fun c d => c.1 < d.1) ∧ ∀ c ∈ m, c.1 < 2 ^ 64 ∧ c.2 ≠ unlistedByte

/-- `M[a]` (R40): the byte last written there (R46). -/
def Memory.read (m : Memory) (a : Nat) : Byte :=
  match m with
  | [] => unlistedByte
  | c :: rest => if c.1 = a then c.2 else Memory.read rest a

/-- An entry in front of a memory, left out where it says what an unlisted address says. -/
def Memory.entry (a : Nat) (v : Byte) (m : Memory) : Memory :=
  if v = unlistedByte then m else (a, v) :: m

/-- `M[a] <- v` (R46): only that byte changes. -/
def Memory.write (m : Memory) (a : Nat) (v : Byte) : Memory :=
  match m with
  | [] => Memory.entry a v []
  | c :: rest =>
    if a < c.1 then Memory.entry a v (c :: rest)
    else if a = c.1 then Memory.entry a v rest
    else c :: Memory.write rest a v

/-- `MemRead(a, n)` (R14). -/
def Memory.readBytes (m : Memory) (a n : Nat) : Bytes := (List.range n).map (fun k => Memory.read m (a + k))

/-- `MemWrite(a, n, v)` with `n` the length of `v` (R14). -/
def Memory.writeBytes (m : Memory) (a : Nat) (v : Bytes) : Memory :=
  match v with
  | [] => m
  | b :: rest => Memory.writeBytes (Memory.write m a b) (a + 1) rest

/-- Block `i` of the buffer at `a` (R42). -/
def Memory.block (m : Memory) (blockSize a i : Nat) : Bytes :=
  Memory.readBytes m (blockAddr blockSize a i) blockSize

/-- STATUS written, nothing else. -/
def State.setStatus (s : State) (w : Word) : State := { s with status := w }

/-- RESULT written, nothing else. -/
def State.setResult (s : State) (w : Word) : State := { s with result := w }

/-- The chain context written (R17: MODE, PREV_C, PREV_P and BLOCKS together), nothing else. -/
def State.setChain (s : State) (m : Mode) (c p : Bytes) (n : Word) : State :=
  { s with mode := m, prevC := c, prevP := p, blocks := n }

/-- `M` written, nothing else. -/
def State.setMem (s : State) (m : Memory) : State := { s with mem := m }

/-- The count of free values drawn written, nothing else (log 5). -/
def State.setFree (s : State) (k : Nat) : State := { s with free := k }

/-- The accesses still to come written, nothing else (log 6). -/
def State.setBus (s : State) (b : List Access) : State := { s with bus := b }

/-- One more answer to the host, nothing else changed (log 6). -/
def State.answer (s : State) (x : Answer) : State := { s with answers := s.answers ++ [x] }

/-- Taking an error, `raise e` (R143): STATUS.CODE becomes its code and STATUS.ANY_ERROR becomes 1. Nothing else
changes, nothing is saved and control goes nowhere (R142, R149), so there is no return from it. -/
def raise (e : ErrorCode) (s : State) : State := s.setStatus (statusError s.status e)

/-- The end of a command that succeeds: `STATUS.CODE <- OK`. -/
def succeed (s : State) : State := s.setStatus (statusOk s.status)

/-- A command: its first error if one applies, else its effect and success (R15, R143, R144). -/
def guarded (err : Option ErrorCode) (effect s : State) : State :=
  match err with
  | some e => raise e s
  | none => succeed effect

/-- The IV checks in order: length, then range (R80, R81, R144). -/
def checkIv (P : Params) (ivA ivL : Nat) : Option ErrorCode :=
  if ivL ≠ 2 * P.blockSize then some .configuration
  else if inRange ivA (2 * P.blockSize) = false then some .addressRange
  else none

/-- `CheckBuffers`: alignment, size, range, overlap, the first that fails (R101 to R104, R144). -/
def checkBuffers (P : Params) (dstA dstL srcA srcL : Nat) : Option ErrorCode :=
  if srcL = 0 ∨ srcL % P.blockSize ≠ 0 then some .bufferAlignment
  else if dstL < srcL then some .bufferSize
  else if inRange srcA srcL = false ∨ inRange dstA dstL = false then some .addressRange
  else if P.aliasCheck = true ∧ partialOverlap dstA srcA srcL = true then some .bufferOverlap
  else none

/-- Power-on reset (R170): every register as in R34, PREV_C and PREV_P free values; memory is not touched, and the
host's side (its queue and answers) is no engine state (log 13). -/
def powerOn (P : Params) (s : State) : State :=
  { s with toEngine := Engine.reset P.blockSize s.free, free := s.free + 2 }

end Sys2Proof.Machine
end

