-- ==== Sys2Proof/Machine/Construct.lean ====
section
/-! DEFINITION. Chain construction and the block-size query: ENC_INIT, DEC_INIT, BLOCKSIZE (40_construct R80 to
R88). -/

namespace Sys2Proof.Machine

/-- The first error of a construction (R144). -/
def initError (P : Params) (s : State) : Option ErrorCode := checkIv P (initIvAddr s) (initIvLen s)

/-- A successful construction of a chain of kind `m`: the IV read once and split (R83, R88), BLOCKS = 0. -/
def construct (P : Params) (m : Mode) (s : State) : State :=
  let iv := s.mem.readBytes (initIvAddr s) (2 * P.blockSize)
  s.setChain m (slice iv 0 P.blockSize) (slice iv P.blockSize (2 * P.blockSize)) 0

/-- ENC_INIT over the parameters (R82). -/
def encInitWith (P : Params) (s : State) : State := guarded (initError P s) (construct P .enc s) s

/-- DEC_INIT over the parameters (R84). -/
def decInitWith (P : Params) (s : State) : State := guarded (initError P s) (construct P .dec s) s

/-- BLOCKSIZE over the parameters (R87): RESULT = B, zero-extended; no error can apply (R144). -/
def blocksizeWith (P : Params) (s : State) : State := guarded none (s.setResult (BitVec.ofNat 64 P.blockSize)) s

/-- ENC_INIT (R82). -/
def execEncInit (s : State) : Host.Outcome State Fault Refusal := .next (encInitWith Config.params s)

/-- DEC_INIT (R84). -/
def execDecInit (s : State) : Host.Outcome State Fault Refusal := .next (decInitWith Config.params s)

/-- BLOCKSIZE (R87). -/
def execBlocksize (s : State) : Host.Outcome State Fault Refusal := .next (blocksizeWith Config.params s)

end Sys2Proof.Machine
end

