-- ==== Sys2Proof/Machine/Chain.lean ====
section
/-! DEFINITION. The encoder step, the decoder step and the block loop that TRANSFORM, ENC_ONCE and DEC_ONCE share
(41_transform R105 to R108), with the open outcome of an unchecked partial overlap (R112). -/

namespace Sys2Proof.Machine

/-- What one step of a chain gives: the output block and the new accumulators. -/
structure StepOut where
  out : Bytes
  c : Bytes
  p : Bytes
deriving DecidableEq, Repr

/-- `EncStep` (R106): `out = Enc(in ⊕ c) ⊕ p`, then `c` is the output and `p` the input. -/
def encStep (P : Params) (inp c p : Bytes) : StepOut :=
  let out := xorBytes (P.enc (xorBytes inp c)) p
  { out := out, c := out, p := inp }

/-- `DecStep` (R108): `out = Dec(in ⊕ p) ⊕ c`, then `c` is the input and `p` the output. -/
def decStep (P : Params) (inp c p : Bytes) : StepOut :=
  let out := xorBytes (P.dec (xorBytes inp p)) c
  { out := out, c := inp, p := out }

/-- The step of the chain's kind (R105): encoder when the mode is ENC, else decoder. -/
def chainStep (P : Params) (m : Mode) (inp c p : Bytes) : StepOut :=
  if m = .enc then encStep P inp c p else decStep P inp c p

/-- The accumulators and the memory inside the block loop, with the count of free values drawn. -/
structure Loop where
  c : Bytes
  p : Bytes
  mem : Memory
  free : Nat
deriving DecidableEq, Repr

/-- The loop body for block `i` (R105): src block `i` is latched whole before dst block `i` is written (R107). -/
def blockStep (P : Params) (m : Mode) (dstA srcA i : Nat) (l : Loop) : Loop :=
  let r := chainStep P m (l.mem.block P.blockSize srcA i) l.c l.p
  { l with c := r.c, p := r.p, mem := l.mem.writeBytes (blockAddr P.blockSize dstA i) r.out }

/-- `ChainRun` (R105): blocks `0` to `n-1` in that order. -/
def chainRun (P : Params) (m : Mode) (dstA srcA : Nat) (n : Nat) (l : Loop) : Loop :=
  match n with
  | 0 => l
  | k + 1 => blockStep P m dstA srcA k (chainRun P m dstA srcA k l)

/-- Both accumulators get any value (R53), by the next two draws. -/
def openChain (P : Params) (l : Loop) : Loop :=
  { l with
    c := Config.freeBytes l.free P.blockSize
    p := Config.freeBytes (l.free + 1) P.blockSize
    free := l.free + 2 }

/-- Whether one of the addresses lies in the `n` bytes from `a` on. -/
def touches (addrs : List Nat) (a n : Nat) : Bool := addrs.any fun x => decide (a ≤ x ∧ x < a + n)

/-- `ChainRun` where reads of the addresses `raced` may give any value: as ever, but a src block with such a byte feeds
the chain any value (R53; log 11). -/
def racedChainRun (P : Params) (m : Mode) (raced : List Nat) (dstA srcA : Nat) (n : Nat) (l : Loop) : Loop :=
  match n with
  | 0 => l
  | k + 1 =>
    let r := blockStep P m dstA srcA k (racedChainRun P m raced dstA srcA k l)
    if touches raced (blockAddr P.blockSize srcA k) P.blockSize then openChain P r else r

/-- R112, reached only where ALIAS_CHECK is false: every byte of `M[dstA ..< dstA + srcL]` and both accumulators are
any value, other bytes keep theirs (log 2). -/
def uncheckedRun (P : Params) (dstA srcL : Nat) (l : Loop) : Loop where
  c := Config.freeBytes (l.free + 1) P.blockSize
  p := Config.freeBytes (l.free + 2) P.blockSize
  mem := l.mem.writeBytes dstA (Config.freeBytes l.free srcL)
  free := l.free + 3

/-- The data part of a command whose buffers passed `checkBuffers`: the block loop over src and dst of the operand
registers from the accumulators `c` and `p` (R105), or R112 where a partial overlap went unchecked. -/
def runBuffers (P : Params) (m : Mode) (c p : Bytes) (s : State) : Loop :=
  let l : Loop := { c := c, p := p, mem := s.mem, free := s.free }
  if partialOverlap (dstAddr s) (srcAddr s) (srcLen s) then uncheckedRun P (dstAddr s) (srcLen s) l
  else chainRun P m (dstAddr s) (srcAddr s) (srcLen s / P.blockSize) l

/-- `runBuffers` from where `l` stands, in a race on the reads of the addresses `raced` (R53; log 11). -/
def racedBuffers (P : Params) (m : Mode) (raced : List Nat) (s : State) (l : Loop) : Loop :=
  if partialOverlap (dstAddr s) (srcAddr s) (srcLen s) then uncheckedRun P (dstAddr s) (srcLen s) l
  else racedChainRun P m raced (dstAddr s) (srcAddr s) (srcLen s / P.blockSize) l

end Sys2Proof.Machine
end

