-- ==== Sys2Proof/Machine/OneShot.lean ====
section
/-! DEFINITION. The one-shot commands ENC_ONCE and DEC_ONCE (42_one_shot R130 to R134). -/

namespace Sys2Proof.Machine

/-- The first error of a one-shot command (R144): the IV checks, then the buffer checks. -/
def onceError (P : Params) (s : State) : Option ErrorCode :=
  (checkIv P (onceIvAddr s) (onceIvLen s)).or (checkBuffers P (dstAddr s) (dstLen s) (srcAddr s) (srcLen s))

/-- What a successful one-shot command leaves after its data part: memory; the accumulators are discarded (R33,
R132). -/
def onceDone (s : State) (l : Loop) : State := (s.setMem l.mem).setFree l.free

/-- A successful one-shot command of kind `m`: the IV read whole before any write (R50), a transient chain over the
buffers (R130, R131). -/
def onceEffect (P : Params) (m : Mode) (s : State) : State :=
  let iv := s.mem.readBytes (onceIvAddr s) (2 * P.blockSize)
  onceDone s (runBuffers P m (slice iv 0 P.blockSize) (slice iv P.blockSize (2 * P.blockSize)) s)

/-- A successful one-shot command in a race on the reads of the addresses `raced`: an IV with such a byte seeds the
transient chain with any value, so the IV's read and src's read of one byte may differ (R53, R174; log 11). -/
def racedOnce (P : Params) (m : Mode) (raced : List Nat) (s : State) : State :=
  let iv := s.mem.readBytes (onceIvAddr s) (2 * P.blockSize)
  let l : Loop :=
    { c := slice iv 0 P.blockSize, p := slice iv P.blockSize (2 * P.blockSize), mem := s.mem, free := s.free }
  onceDone s (racedBuffers P m raced s (if touches raced (onceIvAddr s) (2 * P.blockSize) then openChain P l else l))

/-- ENC_ONCE over the parameters (R130). -/
def encOnceWith (P : Params) (s : State) : State := guarded (onceError P s) (onceEffect P .enc s) s

/-- DEC_ONCE over the parameters (R131). -/
def decOnceWith (P : Params) (s : State) : State := guarded (onceError P s) (onceEffect P .dec s) s

/-- ENC_ONCE (R130). -/
def execEncOnce (s : State) : Host.Outcome State Fault Refusal := .next (encOnceWith Config.params s)

/-- DEC_ONCE (R131). -/
def execDecOnce (s : State) : Host.Outcome State Fault Refusal := .next (decOnceWith Config.params s)

end Sys2Proof.Machine
end

