-- ==== Sys2Proof/Machine/Transform.lean ====
section
/-! DEFINITION. TRANSFORM (41_transform R100 to R112). -/

namespace Sys2Proof.Machine

/-- The first error of TRANSFORM (R144): NOT_CONFIGURED, then the buffer checks (R111, R101 to R104). -/
def transformError (P : Params) (s : State) : Option ErrorCode :=
  if s.mode = .none then some .notConfigured
  else checkBuffers P (dstAddr s) (dstLen s) (srcAddr s) (srcLen s)

/-- What a successful TRANSFORM leaves after its data part (R109): the accumulators and memory of the loop, BLOCKS
advanced by `srcL div B` modulo `2^64`. -/
def transformDone (P : Params) (s : State) (l : Loop) : State :=
  ((s.setChain s.mode l.c l.p (s.blocks + BitVec.ofNat 64 (srcLen s / P.blockSize))).setMem l.mem).setFree l.free

/-- A successful TRANSFORM (R100, R109): the persistent chain over the buffers. -/
def transformEffect (P : Params) (s : State) : State := transformDone P s (runBuffers P s.mode s.prevC s.prevP s)

/-- A successful TRANSFORM in a race on the reads of the addresses `raced` (R53, R174; log 11). -/
def racedTransform (P : Params) (raced : List Nat) (s : State) : State :=
  transformDone P s (racedBuffers P s.mode raced s { c := s.prevC, p := s.prevP, mem := s.mem, free := s.free })

/-- TRANSFORM over the parameters (R100). -/
def transformWith (P : Params) (s : State) : State := guarded (transformError P s) (transformEffect P s) s

/-- TRANSFORM (R100). -/
def execTransform (s : State) : Host.Outcome State Fault Refusal := .next (transformWith Config.params s)

end Sys2Proof.Machine
end

