-- ==== Sys2Proof/Machine/Dispatch.lean ====
section
/-! DEFINITION. One arm per command: its meaning (30_encoding R61). -/

namespace Sys2Proof.Machine

def exec (i : Instr) (s : State) : Host.Outcome State Fault Refusal :=
  match i with
  | .encInit => Sys2Proof.Machine.execEncInit s
  | .decInit => Sys2Proof.Machine.execDecInit s
  | .blocksize => Sys2Proof.Machine.execBlocksize s
  | .transform => Sys2Proof.Machine.execTransform s
  | .encOnce => Sys2Proof.Machine.execEncOnce s
  | .decOnce => Sys2Proof.Machine.execDecOnce s

end Sys2Proof.Machine
end

