-- ==== Sys2Proof/Machine/HostPort.lean ====
section
/-! DEFINITION. The host's side of the engine: the register block (10_state R25, R31, R32), CMD writes (30_encoding
R60 to R62), host accesses to `M` (20_memory R40, R52), and commands that other agents race with (20_memory R53,
70_reset_and_hazards R174). -/

namespace Sys2Proof.Machine

/-- The first error of a command, in its check order (R144). BLOCKSIZE has none. -/
def commandError (P : Params) (i : Instr) (s : State) : Option ErrorCode :=
  match i with
  | .encInit => initError P s
  | .decInit => initError P s
  | .blocksize => none
  | .transform => transformError P s
  | .encOnce => onceError P s
  | .decOnce => onceError P s

/-- The commands over given parameters; `exec` is this at `Config.params` (Laws/Commands.lean). It lets the spec's
vectors run with the spec's test ciphers. -/
def commandWith (P : Params) (i : Instr) (s : State) : State :=
  match i with
  | .encInit => encInitWith P s
  | .decInit => decInitWith P s
  | .blocksize => blocksizeWith P s
  | .transform => transformWith P s
  | .encOnce => encOnceWith P s
  | .decOnce => decOnceWith P s

/-- MODE as software reads it: bits 1:0 (R22, R31). -/
def modeBits (m : Mode) : BitVec 2 :=
  match m with
  | .none => 0
  | .enc => 1
  | .dec => 2

/-- A register as the host reads it (R31): CMD reads 0 (R25), MODE is zero-extended. -/
def readReg (s : State) (r : Reg) : Word :=
  match r with
  | .cmd => 0
  | .status => s.status
  | .result => s.result
  | .mode => (modeBits s.mode).zeroExtend 64
  | .blocks => s.blocks
  | .op0 => s.op0
  | .op1 => s.op1
  | .op2 => s.op2
  | .op3 => s.op3
  | .op4 => s.op4
  | .op5 => s.op5

/-- A host write to a register other than CMD: the operand registers take the value, the read-only registers ignore
it (R24, R32). -/
def writeReg (s : State) (r : Reg) (w : Word) : State :=
  match r with
  | .cmd => s
  | .status => s
  | .result => s
  | .mode => s
  | .blocks => s
  | .op0 => { s with op0 := w }
  | .op1 => { s with op1 := w }
  | .op2 => { s with op2 := w }
  | .op3 => { s with op3 := w }
  | .op4 => { s with op4 := w }
  | .op5 => { s with op5 := w }

/-- A CMD write (R25, R60): the decoded command runs; an illegal word takes ILLEGAL_COMMAND and does nothing else
(R62, R141). -/
def runWord (run : Instr → State → Host.Outcome State Fault Refusal) (w : Word) (s : State) :
    Host.Outcome State Fault Refusal :=
  match decode w with
  | .ok i => run i s
  | .error _ => .next (raise .illegalCommand s)

/-- The register accesses that are defined: 64 bits wide, at a multiple of 8 (R32). -/
def accessDefined (offset width : Nat) : Bool := decide (width = 64 ∧ offset % 8 = 0)

/-- A host write to the register block (R31, R32). Offsets from 0x58 ignore it. -/
def writeAccess (run : Instr → State → Host.Outcome State Fault Refusal) (offset width : Nat) (w : Word)
    (s : State) : Host.Outcome State Fault Refusal :=
  if accessDefined offset width then
    match regAt offset with
    | some .cmd => runWord run w s
    | some r => .next (writeReg s r w)
    | none => .next s
  else .refused (.undefinedAccess offset width)

/-- What a defined read of an offset returns: the register there, or 0 from 0x58 on (R32). -/
def readAt (s : State) (offset : Nat) : Word :=
  match regAt offset with
  | some r => readReg s r
  | none => 0

/-- A host read of the register block (R31, R32): it changes nothing and answers the host. -/
def readAccess (offset width : Nat) (s : State) : Host.Outcome State Fault Refusal :=
  if accessDefined offset width then .next (s.answer (.reg (readAt s offset)))
  else .refused (.undefinedAccess offset width)

/-- A host write to `M` (R40, R46, R52): only those bytes change; no engine register does (R51). -/
def writeMemory (a : Nat) (v : Bytes) (s : State) : Host.Outcome State Fault Refusal :=
  if inRange a v.length then .next (s.setMem (s.mem.writeBytes a v)) else .fault (.outsideMemory a)

/-- A host read of `M` (R40, R46): it changes nothing and answers the host. -/
def readMemory (a n : Nat) (s : State) : Host.Outcome State Fault Refusal :=
  if inRange a n then .next (s.answer (.mem (s.mem.readBytes a n))) else .fault (.outsideMemory a)

/-- Whether an address lies in a range (R45). -/
def Range.has (r : Range) (a : Nat) : Bool := decide (r.start ≤ a ∧ a < r.start + r.len)

/-- The addresses of a range, ascending. -/
def Range.addrs (r : Range) : List Nat := (List.range r.len).map (r.start + ·)

/-- Whether one of the ranges holds an address. -/
def covers (rs : List Range) (a : Nat) : Bool := rs.any (fun r => r.has a)

/-- The memory a command reads and writes (R41). A command that fails reads none that matters and writes none. -/
def footprint (P : Params) (i : Instr) (s : State) : Foreign :=
  if (commandError P i s).isSome then { reads := [], writes := [] }
  else
    match i with
    | .encInit => { reads := [⟨initIvAddr s, 2 * P.blockSize⟩], writes := [] }
    | .decInit => { reads := [⟨initIvAddr s, 2 * P.blockSize⟩], writes := [] }
    | .blocksize => { reads := [], writes := [] }
    | .transform => { reads := [⟨srcAddr s, srcLen s⟩], writes := [⟨dstAddr s, srcLen s⟩] }
    | .encOnce =>
      { reads := [⟨onceIvAddr s, 2 * P.blockSize⟩, ⟨srcAddr s, srcLen s⟩], writes := [⟨dstAddr s, srcLen s⟩] }
    | .decOnce =>
      { reads := [⟨onceIvAddr s, 2 * P.blockSize⟩, ⟨srcAddr s, srcLen s⟩], writes := [⟨dstAddr s, srcLen s⟩] }

/-- The overlap of a race (R53): the bytes that one side writes and the other reads or writes. -/
def overlaps (fp f : Foreign) (a : Nat) : Bool :=
  (covers fp.writes a && (covers f.reads a || covers f.writes a)) || (covers fp.reads a && covers f.writes a)

/-- The bytes of the overlap that the command reads, those it also writes while another agent only reads them among
them (R53, row 13 of 93_implementation_defined.md). -/
def racedReads (fp f : Foreign) : List Nat := (fp.reads.flatMap Range.addrs).filter (overlaps fp f)

/-- The bytes of the overlap that the command writes (R53). -/
def racedWrites (fp f : Foreign) : List Nat := (fp.writes.flatMap Range.addrs).filter (overlaps fp f)

/-- Each of the addresses given any value: draw `k` of the free values (log 11). -/
def scramble (m : Memory) (k : Nat) (addrs : List Nat) : Memory :=
  addrs.foldl (fun m a => m.write a (Config.freeByte k a)) m

/-- A command in a race on the reads of the addresses `raced`, whose bytes of `M` have any value already (R53, R174;
log 11). ENC_INIT and DEC_INIT take those bytes; `afterRace` opens the chain they seed. -/
def racedCommandWith (P : Params) (i : Instr) (raced : List Nat) (s : State) : State :=
  match i with
  | .encInit => encInitWith P s
  | .decInit => decInitWith P s
  | .blocksize => blocksizeWith P s
  | .transform => guarded (transformError P s) (racedTransform P raced s) s
  | .encOnce => guarded (onceError P s) (racedOnce P .enc raced s) s
  | .decOnce => guarded (onceError P s) (racedOnce P .dec raced s) s

/-- The commands that feed the bytes they read into PREV_C and PREV_P (R21). -/
def feedsChain (i : Instr) : Bool :=
  match i with
  | .encInit => true
  | .decInit => true
  | .blocksize => false
  | .transform => true
  | .encOnce => false
  | .decOnce => false

/-- After a raced command: every byte of the overlap has any value, and so have both accumulators where the command
fed raced bytes into them (R53; log 11). -/
def afterRace (P : Params) (i : Instr) (reads writes : List Nat) (t : State) : State :=
  let u := (t.setMem (scramble t.mem t.free (reads ++ writes))).setFree (t.free + 1)
  if reads ≠ [] ∧ feedsChain i = true then
    (u.setChain u.mode (Config.freeBytes u.free P.blockSize) (Config.freeBytes (u.free + 1) P.blockSize)
      u.blocks).setFree (u.free + 2)
  else u

/-- A command while other agents touch memory (R53, R174): without an overlap it runs as ever; with one, what it reads
from the overlap and the chain state that this feeds have any value, and afterwards every byte of the overlap has
(log 11). -/
def racedRun (P : Params) (run : Instr → State → Host.Outcome State Fault Refusal) (f : Foreign) (i : Instr)
    (s : State) : Host.Outcome State Fault Refusal :=
  let reads := racedReads (footprint P i s) f
  let writes := racedWrites (footprint P i s) f
  if reads ++ writes = [] then run i s
  else
    .next (afterRace P i reads writes
      (racedCommandWith P i reads ((s.setMem (scramble s.mem s.free reads)).setFree (s.free + 1))))

/-- One access of the host or the platform (R24, R25, R40, R52, R53, R170). -/
def perform (P : Params) (run : Instr → State → Host.Outcome State Fault Refusal) (a : Access) (s : State) :
    Host.Outcome State Fault Refusal :=
  match a with
  | .regWrite offset width w => writeAccess run offset width w s
  | .regRead offset width => readAccess offset width s
  | .memWrite addr v => writeMemory addr v s
  | .memRead addr n => readMemory addr n s
  | .racedCommand w f => runWord (racedRun P run f) w s
  | .powerOn => .next (powerOn P s)

/-- One step: the next access waiting is taken from the queue and performed, to its end (R15, R52, R148). With none
waiting the engine is idle and keeps all its state (R155, R170). -/
def hostStep (P : Params) (run : Instr → State → Host.Outcome State Fault Refusal) (s : State) :
    Host.Outcome State Fault Refusal :=
  match s.bus with
  | [] => .next s
  | a :: rest => perform P run a (s.setBus rest)

/-- The machine with other parameters: what the spec's vectors run on with its test ciphers. -/
def stepWith (P : Params) (s : State) : Host.Outcome State Fault Refusal :=
  hostStep P (fun i t => .next (commandWith P i t)) s

end Sys2Proof.Machine
end

