-- ==== Sys2Proof/Machine/Step.lean ====
section
/-! DEFINITION. One step of the machine, and where it takes its next command from (10_state R25, R28). -/

namespace Sys2Proof.Machine

/-- One step: the next access of the host, with `exec` for the command a CMD write holds (R25). -/
def step (s : State) : Host.Outcome State Fault Refusal := hostStep Config.params exec s

/-- The command word put where `step` takes its next command: a 64-bit CMD write in front of the host's accesses
(R25, R31; log 6). -/
def State.withFetchWord (s : State) (nbits w : Nat) : State :=
  { s with bus := .regWrite (regOffset .cmd) 64 (tableWord nbits w) :: s.bus }

end Sys2Proof.Machine
end

