-- ==== Sys2Proof/Machine/Assembler.lean ====
section
/-! DEFINITION. The host-program syntax: a line's expansion into register accesses (30_encoding R66 to R68), and
reading a line from its text (R66; log 14). -/

namespace Sys2Proof.Machine

/-- `WR reg, value` (R66). -/
def wrAccess (r : Reg) (v : Nat) : Access := .regWrite (regOffset r) 64 (BitVec.ofNat 64 v)

/-- `RD reg` (R66). -/
def rdAccess (r : Reg) : Access := .regRead (regOffset r) 64

/-- The CMD write of a command (R67). -/
def cmdAccess (i : Instr) : Access := .regWrite (regOffset .cmd) 64 (encode i)

/-- The expansion of a line (R67): operand writes in the order of R63, then one CMD write. A register the command does
not list is not written. -/
def expand (l : Line) : List Access :=
  match l with
  | .wr r v => [wrAccess r v]
  | .rd r => [rdAccess r]
  | .encInit iv ivLen => [wrAccess .op0 iv, wrAccess .op1 ivLen, cmdAccess .encInit]
  | .decInit iv ivLen => [wrAccess .op0 iv, wrAccess .op1 ivLen, cmdAccess .decInit]
  | .blocksize => [cmdAccess .blocksize]
  | .transform dst dstLen src srcLen =>
    [wrAccess .op0 dst, wrAccess .op1 dstLen, wrAccess .op2 src, wrAccess .op3 srcLen, cmdAccess .transform]
  | .encOnce dst dstLen src srcLen iv ivLen =>
    [wrAccess .op0 dst, wrAccess .op1 dstLen, wrAccess .op2 src, wrAccess .op3 srcLen, wrAccess .op4 iv,
      wrAccess .op5 ivLen, cmdAccess .encOnce]
  | .decOnce dst dstLen src srcLen iv ivLen =>
    [wrAccess .op0 dst, wrAccess .op1 dstLen, wrAccess .op2 src, wrAccess .op3 srcLen, wrAccess .op4 iv,
      wrAccess .op5 ivLen, cmdAccess .decOnce]

/-- A program is the accesses of its lines, in order (R68, R180). -/
def expandAll (ls : List Line) : List Access := ls.flatMap expand

/-- The command a line stands for, if it is a command line (R67). -/
def lineCommand (l : Line) : Option Instr :=
  match l with
  | .wr _ _ => none
  | .rd _ => none
  | .encInit _ _ => some .encInit
  | .decInit _ _ => some .decInit
  | .blocksize => some .blocksize
  | .transform _ _ _ _ => some .transform
  | .encOnce _ _ _ _ _ _ => some .encOnce
  | .decOnce _ _ _ _ _ _ => some .decOnce

/-- A blank between the parts of a line. -/
def isBlank (c : Char) : Bool := c = ' ' || c = '\t' || c = '\r'

/-- A text without the blanks around it. -/
def trim (cs : List Char) : List Char := ((cs.dropWhile isBlank).reverse.dropWhile isBlank).reverse

/-- The parts of a text between separators, in order; always at least one part. -/
def splitBy (sep : Char) (cs : List Char) : List (List Char) :=
  match cs with
  | [] => [[]]
  | c :: rest =>
    if c = sep then [] :: splitBy sep rest
    else
      match splitBy sep rest with
      | [] => [[c]]
      | part :: parts => (c :: part) :: parts

/-- The value of a digit in base 10 or 16. -/
def digitValue (base : Nat) (c : Char) : Option Nat :=
  let n := c.toNat
  let v := if 48 ≤ n ∧ n ≤ 57 then n - 48 else if 65 ≤ n ∧ n ≤ 70 then n - 55
    else if 97 ≤ n ∧ n ≤ 102 then n - 87 else base
  if v < base then some v else none

/-- An unsigned integer in a base, at least one digit. -/
def readDigits (base : Nat) (cs : List Char) : Option Nat :=
  if cs = [] then none
  else cs.foldl (fun acc c => acc.bind fun a => (digitValue base c).map fun d => a * base + d) (some 0)

/-- A value: decimal, or hexadecimal after `0x`, below `2^64` (R66). -/
def readValue (cs : List Char) : Option Nat :=
  let n := match cs with
    | '0' :: 'x' :: hex => readDigits 16 hex
    | _ => readDigits 10 cs
  n.bind fun v => if valueFits v then some v else none

/-- The register names (R66). -/
def regName (r : Reg) : String :=
  match r with
  | .cmd => "CMD"
  | .status => "STATUS"
  | .result => "RESULT"
  | .mode => "MODE"
  | .blocks => "BLOCKS"
  | .op0 => "OP0"
  | .op1 => "OP1"
  | .op2 => "OP2"
  | .op3 => "OP3"
  | .op4 => "OP4"
  | .op5 => "OP5"

/-- Every register. -/
def allRegs : List Reg :=
  [.cmd, .status, .result, .mode, .blocks, .op0, .op1, .op2, .op3, .op4, .op5]

/-- The register of a name. -/
def readRegName (cs : List Char) : Option Reg := allRegs.find? fun r => (regName r).toList = cs

/-- A line from its first word and its operands: `none` where the word is no mnemonic, an operand does not read or
their number is wrong (R66, R67). -/
def readParts (word : List Char) (operands : List (List Char)) : Option Line :=
  if word = "WR".toList then
    match operands with
    | [r, v] => (readRegName r).bind fun r => (readValue v).map fun v => .wr r v
    | _ => none
  else if word = "RD".toList then
    match operands with
    | [r] => (readRegName r).map fun r => .rd r
    | _ => none
  else
    match operands.mapM readValue with
    | none => none
    | some vs =>
      match vs with
      | [] => if word = "BLOCKSIZE".toList then some .blocksize else none
      | [iv, ivLen] =>
        if word = "ENC_INIT".toList then some (.encInit iv ivLen)
        else if word = "DEC_INIT".toList then some (.decInit iv ivLen)
        else none
      | [dst, dstLen, src, srcLen] =>
        if word = "TRANSFORM".toList then some (.transform dst dstLen src srcLen) else none
      | [dst, dstLen, src, srcLen, iv, ivLen] =>
        if word = "ENC_ONCE".toList then some (.encOnce dst dstLen src srcLen iv ivLen)
        else if word = "DEC_ONCE".toList then some (.decOnce dst dstLen src srcLen iv ivLen)
        else none
      | _ => none

/-- A line from its text: the comment after `;` dropped, the first word, then the operands between commas (R66).
`none` for a text that is no line; `some none` for a blank or comment line. -/
def readLine (cs : List Char) : Option (Option Line) :=
  let body := trim (cs.takeWhile (· ≠ ';'))
  if body = [] then some none
  else
    let word := body.takeWhile (fun c => !isBlank c)
    let rest := trim (body.dropWhile (fun c => !isBlank c))
    let operands := if rest = [] then [] else (splitBy ',' rest).map trim
    (readParts word operands).map some

/-- A host program from its text, one line a line; `none` where a line does not read (R66). -/
def readProgram (cs : List Char) : Option (List Line) :=
  ((splitBy '\n' cs).mapM readLine).map fun ls => ls.filterMap id

end Sys2Proof.Machine
end

