-- ==== Sys2Proof/Machine/System.lean ====
section
/-! DEFINITION. Several engines over one memory (00_scope R10, 20_memory R53, 60_exceptions R152; log 12). Each engine
with the memory is a `State`, and its accesses are the machine's own steps. DESIGN CHOICE, unsafe for a claim that rests
on it: every engine of a system has the one attached CIPHER of `Config.params`, its key among it (log 21). -/

namespace Sys2Proof.Machine

/-- What happens next in a system: an access to one engine, or two commands of different engines that overlap in
time (R53). -/
inductive Event
  | access (engine : Nat) (a : Access)
  | together (engine₁ : Nat) (word₁ : Word) (engine₂ : Nat) (word₂ : Word)
deriving DecidableEq, Repr

/-- N_ENGINES engines and the memory they share (R10, R53), with the accesses still to come and the answers the
host got. -/
structure System where
  engines : List Engine
  mem : Memory
  free : Nat
  bus : List Event
  answers : List Answer
deriving DecidableEq, Repr

/-- Engine `k` with the shared memory, as a machine of its own (R10: instances share nothing but memory). -/
def System.view (y : System) (k : Nat) : Option State :=
  (y.engines[k]?).map fun e =>
    { toEngine := e, mem := y.mem, free := y.free, bus := [], answers := y.answers }

/-- The system after engine `k` moved to `s`: that engine and the shared memory change, no other engine does. -/
def System.update (y : System) (k : Nat) (s : State) : System :=
  { y with engines := y.engines.set k s.toEngine, mem := s.mem, free := s.free, answers := s.answers }

/-- One access to engine `k` (R152: an engine has no identifier, the platform tells them apart). Its `step` runs over
`Config.params`, the same attached CIPHER (B, Enc, Dec, key) for every engine, where R7, R10 and R61 leave open whether
each has its own: DESIGN CHOICE, unsafe (log 21). -/
def System.access (y : System) (k : Nat) (a : Access) : Host.Outcome System Fault Refusal :=
  match y.view k with
  | none => .refused (.noSuchEngine k)
  | some s =>
    match step (s.setBus [a]) with
    | .next t => .next (y.update k t)
    | .fault r => .fault r
    | .refused r => .refused r

/-- The memory a CMD word touches on engine `k` (R41); an illegal word touches none (R141). -/
def System.footprintOf (y : System) (k : Nat) (w : Word) : Foreign :=
  match y.view k, decode w with
  | some s, .ok i => footprint Config.params i s
  | _, _ => { reads := [], writes := [] }

/-- Two commands of different engines that overlap in time: each runs as a command that the other's accesses race
with (R53). One engine takes one command at a time (R152), so the same engine twice is two accesses in order. -/
def System.together (y : System) (j : Nat) (wj : Word) (k : Nat) (wk : Word) : Host.Outcome System Fault Refusal :=
  let first := if j = k then Access.regWrite (regOffset .cmd) 64 wj else .racedCommand wj (y.footprintOf k wk)
  let second := if j = k then Access.regWrite (regOffset .cmd) 64 wk else .racedCommand wk (y.footprintOf j wj)
  match y.access j first with
  | .next z => z.access k second
  | .fault r => .fault r
  | .refused r => .refused r

/-- One step of a system: the next event. -/
def System.step (y : System) : Host.Outcome System Fault Refusal :=
  match y.bus with
  | [] => .next y
  | .access k a :: rest => ({ y with bus := rest } : System).access k a
  | .together j wj k wk :: rest => ({ y with bus := rest } : System).together j wj k wk

/-- A system after power-on: N_ENGINES engines as R34 has them. -/
def System.reset : System where
  engines := (List.range Config.nEngines).map fun k => Engine.reset Config.blockSize (2 * k)
  mem := []
  free := 2 * Config.nEngines
  bus := []
  answers := []

end Sys2Proof.Machine
end

