-- ==== Sys2Proof/Safety.lean ====
section
/-! DEFINITION. What claims call a good state and a run without errors (10_state R21, R23, R26, R27; 60_exceptions
R140, R146). -/

namespace Sys2Proof.Machine

/-- The invariant of an engine: the accumulators are blocks (R21), STATUS bits 63:9 are 0 (R26), CODE is one of 0 to
7 (R140), a CODE other than OK goes with ANY_ERROR = 1 (R143, R146), RESULT is 0 or `B` (R27, R34), and a chain that
was never constructed has processed no block (R22, R23). -/
structure Engine.Inv (P : Params) (e : Engine) : Prop where
  prevC_length : e.prevC.length = P.blockSize
  prevP_length : e.prevP.length = P.blockSize
  status_reserved : reservedStatus e.status = 0
  code_legal : codeField e.status ≤ 7
  error_sticky : codeField e.status ≠ 0 → anyErrorField e.status = true
  result_legal : e.result = 0 ∨ e.result = BitVec.ofNat 64 P.blockSize
  none_idle : e.mode = .none → e.blocks = 0

/-- The invariant of the machine: the engine's, and the canonical form of memory with every listed address below
`2^64` (R40). -/
structure State.Inv (P : Params) (s : State) : Prop where
  engine : s.toEngine.Inv P
  mem_wf : s.mem.wf

/-- An IV operand that passes the checks of a construction (R80, R81): `2*B` bytes that do not pass the top of
memory. -/
structure GoodIv (P : Params) (ivA ivL : Nat) : Prop where
  length : ivL = 2 * P.blockSize
  range : ivA + 2 * P.blockSize ≤ 2 ^ 64

/-- Buffer operands that pass R101 to R104: src a positive multiple of `B`, dst at least as long, both in range, and
dst identical to src or apart from it over the written length. -/
structure GoodBuffers (P : Params) (s : State) : Prop where
  positive : srcLen s ≠ 0
  aligned : srcLen s % P.blockSize = 0
  size : srcLen s ≤ dstLen s
  srcRange : srcAddr s + srcLen s ≤ 2 ^ 64
  dstRange : dstAddr s + dstLen s ≤ 2 ^ 64
  apart : dstAddr s = srcAddr s ∨ dstAddr s + srcLen s ≤ srcAddr s ∨ srcAddr s + srcLen s ≤ dstAddr s

/-- `code` is the code of the first buffer check that fails, in the order alignment, size, range, overlap (R101 to
R104, R144). -/
def FirstBufferError (P : Params) (s : State) (code : Nat) : Prop :=
  (code = 2 ∧ (srcLen s = 0 ∨ srcLen s % P.blockSize ≠ 0)) ∨
  (srcLen s ≠ 0 ∧ srcLen s % P.blockSize = 0 ∧
    ((code = 3 ∧ dstLen s < srcLen s) ∨
      (srcLen s ≤ dstLen s ∧
        ((code = 7 ∧ (2 ^ 64 < srcAddr s + srcLen s ∨ 2 ^ 64 < dstAddr s + dstLen s)) ∨
          (srcAddr s + srcLen s ≤ 2 ^ 64 ∧ dstAddr s + dstLen s ≤ 2 ^ 64 ∧ code = 4 ∧ dstAddr s ≠ srcAddr s ∧
            dstAddr s < srcAddr s + srcLen s ∧ srcAddr s < dstAddr s + srcLen s)))))

/-- The code of the IV checks in their order, length then range, or OK (R80, R81, R144). -/
def firstIvCode (P : Params) (ivA ivL : Nat) : Nat :=
  if ivL ≠ 2 * P.blockSize then 1 else if 2 ^ 64 < ivA + 2 * P.blockSize then 7 else 0

/-- The code of the buffer checks in their order, alignment, size, range, overlap, or OK (R101 to R104, R144), with the
alias check on (R8). -/
def firstBufferCode (P : Params) (s : State) : Nat :=
  if srcLen s = 0 ∨ srcLen s % P.blockSize ≠ 0 then 2
  else if dstLen s < srcLen s then 3
  else if 2 ^ 64 < srcAddr s + srcLen s ∨ 2 ^ 64 < dstAddr s + dstLen s then 7
  else if dstAddr s ≠ srcAddr s ∧ dstAddr s < srcAddr s + srcLen s ∧ srcAddr s < dstAddr s + srcLen s then 4
  else 0

/-- STATUS as a number with CODE = OK and every other bit as it was (R26, R146). -/
def okStatus (status : Word) : Word := BitVec.ofNat 64 (status.toNat / 256 * 256)

/-- STATUS as a number with CODE = `code`, ANY_ERROR = 1 and every other bit as it was (R26, R143). -/
def errorStatus (status : Word) (code : Nat) : Word := BitVec.ofNat 64 (status.toNat / 512 * 512 + 256 + code)

/-- No command of the run has failed since reset (R146). -/
def State.noError (s : State) : Prop := anyErrorField s.status = false

/-- The last command succeeded (R26). -/
def State.ok (s : State) : Prop := codeField s.status = 0

end Sys2Proof.Machine
end

