-- ==== Sys2Proof/Certificates/Slice0/Obligations.lean ====
section
/-! DEFINITION. The statements about the IGE chaining engine, from the numbered rules of spec/. `Config.params` are this
hardware's parameters: its `B`, `Enc` and `Dec` are open but for the contract of R7, so a statement holds for every
attached cipher. No statement rests on a free value (log 5). -/

open Sys2Proof Sys2Proof.Machine

/-! ### Encoding -/

/-- 30_encoding R61 and the words of 95_test_vectors 3.8, written out: a sanity check of the decoder. -/
def Obligations.CommandWordsDecode : Prop :=
  decode 0x0000000000000001 = .ok .encInit ∧ decode 0x0000000000000002 = .ok .decInit ∧
    decode 0x0000000000000003 = .ok .blocksize ∧ decode 0x0000000000000004 = .ok .transform ∧
    decode 0x0000000000000005 = .ok .encOnce ∧ decode 0x0000000000000006 = .ok .decOnce ∧
    (∀ i, decode 0x0000000000000000 ≠ .ok i) ∧ (∀ i, decode 0x0000000000000007 ≠ .ok i) ∧
    (∀ i, decode 0x00000000000000FF ≠ .ok i) ∧ (∀ i, decode 0x0000000000000101 ≠ .ok i) ∧
    (∀ i, decode 0x8000000000000004 ≠ .ok i)

/-- R65: which word decodes to which command, over every 64-bit word, and which words are illegal (the condition of
R62). -/
def Obligations.DecodeFollowsTheOpcodeMap : Prop :=
  (∀ w : Word, decode w = .ok .encInit ↔ w.toNat / 2 ^ 8 = 0 ∧ w.toNat % 2 ^ 8 = 0x01) ∧
    (∀ w : Word, decode w = .ok .decInit ↔ w.toNat / 2 ^ 8 = 0 ∧ w.toNat % 2 ^ 8 = 0x02) ∧
    (∀ w : Word, decode w = .ok .blocksize ↔ w.toNat / 2 ^ 8 = 0 ∧ w.toNat % 2 ^ 8 = 0x03) ∧
    (∀ w : Word, decode w = .ok .transform ↔ w.toNat / 2 ^ 8 = 0 ∧ w.toNat % 2 ^ 8 = 0x04) ∧
    (∀ w : Word, decode w = .ok .encOnce ↔ w.toNat / 2 ^ 8 = 0 ∧ w.toNat % 2 ^ 8 = 0x05) ∧
    (∀ w : Word, decode w = .ok .decOnce ↔ w.toNat / 2 ^ 8 = 0 ∧ w.toNat % 2 ^ 8 = 0x06) ∧
    ∀ w : Word, (∃ r, decode w = .error r) ↔
      w.toNat / 2 ^ 8 ≠ 0 ∨ w.toNat % 2 ^ 8 = 0x00 ∨ 0x07 ≤ w.toNat % 2 ^ 8

/-- R60, R61, R67, R68: decode and encode agree both ways, and a command line with its operands at every value below
`2^64` is recovered from its encoding, the list of its register writes: no operand bit is dropped. -/
def Obligations.CommandEncodingLosesNothing : Prop :=
  (∀ i : Instr, i.wf = true → decode (encode i) = .ok i) ∧
    (∀ (w : Word) (i : Instr), decode w = .ok i → encode i = w) ∧
    ∀ l k : Line, l.wf = true → k.wf = true → lineCommand l ≠ none → lineCommand k ≠ none →
      expand l = expand k → l = k

/-! ### Steps -/

/-- R25: a CMD write of a word that decodes to a command is one step, and the step is that command on the state
behind the write; `withFetchWord` puts such a write in front. -/
def Obligations.StepRunsTheDecodedCommand : Prop :=
  (∀ (s : State) (w : Word) (i : Instr) (rest : List Access),
      s.bus = .regWrite 0x00 64 w :: rest → decode w = .ok i → step s = exec i { s with bus := rest }) ∧
    ∀ (s : State) (nbits w : Nat) (i : Instr),
      decodeTableWord nbits w = some i → step (s.withFetchWord nbits w) = exec i s

/-- R141: an illegal CMD word sets CODE to 6 and ANY_ERROR to 1 and changes nothing else. The write leaves the host's
queue, which is the model's own (log 6). -/
def Obligations.IllegalWordChangesOnlyStatus : Prop :=
  ∀ (s : State) (w : Word) (rest : List Access), s.bus = .regWrite 0x00 64 w :: rest →
    (w.toNat / 2 ^ 8 ≠ 0 ∨ w.toNat % 2 ^ 8 = 0x00 ∨ 0x07 ≤ w.toNat % 2 ^ 8) →
    step s = .next { s with bus := rest, status := errorStatus s.status 6 }

/-- R15, R148: every command ends, with a next state, in every state. -/
def Obligations.EveryCommandCompletes : Prop :=
  ∀ (i : Instr) (s : State), ∃ t, exec i s = .next t ∧
    (codeField t.status = 0 ∨ t = { s with status := errorStatus s.status (codeField t.status).toNat })

/-! ### Construction and block size -/

/-- R82 (with R80, R81, R83): the word of ENC_INIT, and ENC_INIT on every IV operand as its pseudocode has it;
everything not named keeps its value. -/
def Obligations.EncInitFollowsItsPseudocode : Prop :=
  decode 0x0000000000000001 = .ok .encInit ∧ ∀ s : State,
    (s.op1.toNat = 2 * Config.blockSize → s.op0.toNat + 2 * Config.blockSize ≤ 2 ^ 64 →
      exec .encInit s = .next { s with
        mode := .enc
        prevC := s.mem.readBytes s.op0.toNat Config.blockSize
        prevP := s.mem.readBytes (s.op0.toNat + Config.blockSize) Config.blockSize
        blocks := 0
        status := okStatus s.status }) ∧
    (s.op1.toNat ≠ 2 * Config.blockSize → exec .encInit s = .next { s with status := errorStatus s.status 1 }) ∧
    (s.op1.toNat = 2 * Config.blockSize → 2 ^ 64 < s.op0.toNat + 2 * Config.blockSize →
      exec .encInit s = .next { s with status := errorStatus s.status 7 })

/-- R84 (with R80, R81, R83): the word of DEC_INIT, and DEC_INIT on every IV operand as its pseudocode has it. -/
def Obligations.DecInitFollowsItsPseudocode : Prop :=
  decode 0x0000000000000002 = .ok .decInit ∧ ∀ s : State,
    (s.op1.toNat = 2 * Config.blockSize → s.op0.toNat + 2 * Config.blockSize ≤ 2 ^ 64 →
      exec .decInit s = .next { s with
        mode := .dec
        prevC := s.mem.readBytes s.op0.toNat Config.blockSize
        prevP := s.mem.readBytes (s.op0.toNat + Config.blockSize) Config.blockSize
        blocks := 0
        status := okStatus s.status }) ∧
    (s.op1.toNat ≠ 2 * Config.blockSize → exec .decInit s = .next { s with status := errorStatus s.status 1 }) ∧
    (s.op1.toNat = 2 * Config.blockSize → 2 ^ 64 < s.op0.toNat + 2 * Config.blockSize →
      exec .decInit s = .next { s with status := errorStatus s.status 7 })

/-- R87: the word of BLOCKSIZE, and BLOCKSIZE succeeds in every state; RESULT holds `B` and STATUS.CODE is OK, nothing
else changes. -/
def Obligations.BlocksizeReportsTheBlockSize : Prop :=
  decode 0x0000000000000003 = .ok .blocksize ∧ ∀ s : State, ∃ r : Word, r.toNat = Config.blockSize ∧
    exec .blocksize s = .next { s with result := r, status := okStatus s.status }

/-! ### TRANSFORM -/

/-- R106, R107: a TRANSFORM of the encoder over good buffers succeeds and writes
`c_i = Enc(m_i ⊕ c_{i-1}) ⊕ m_{i-1}` to dst block `i`, with `m_i` the src block before the command and `c_{-1}`,
`m_{-1}` the accumulators; PREV_C and PREV_P end as the last ciphertext and plaintext block. In place too. -/
def Obligations.EncoderWritesTheIgeChain : Prop :=
  ∀ s : State, s.Inv Config.params → s.mode = .enc → GoodBuffers Config.params s →
    ∃ t, exec .transform s = .next t ∧ codeField t.status = 0 ∧
      (∀ i, i < srcLen s / Config.blockSize →
        t.mem.block Config.blockSize (dstAddr s) i =
          xorBytes
            (Config.enc (xorBytes (s.mem.block Config.blockSize (srcAddr s) i)
              (if i = 0 then s.prevC else t.mem.block Config.blockSize (dstAddr s) (i - 1))))
            (if i = 0 then s.prevP else s.mem.block Config.blockSize (srcAddr s) (i - 1))) ∧
      t.prevC = t.mem.block Config.blockSize (dstAddr s) (srcLen s / Config.blockSize - 1) ∧
      t.prevP = s.mem.block Config.blockSize (srcAddr s) (srcLen s / Config.blockSize - 1)

/-- R108, R107: a TRANSFORM of the decoder over good buffers succeeds and writes
`m_i = Dec(c_i ⊕ m_{i-1}) ⊕ c_{i-1}` to dst block `i`; PREV_C and PREV_P end as the last ciphertext block read and
the last plaintext block written. In place too. -/
def Obligations.DecoderWritesTheInverseChain : Prop :=
  ∀ s : State, s.Inv Config.params → s.mode = .dec → GoodBuffers Config.params s →
    ∃ t, exec .transform s = .next t ∧ codeField t.status = 0 ∧
      (∀ i, i < srcLen s / Config.blockSize →
        t.mem.block Config.blockSize (dstAddr s) i =
          xorBytes
            (Config.dec (xorBytes (s.mem.block Config.blockSize (srcAddr s) i)
              (if i = 0 then s.prevP else t.mem.block Config.blockSize (dstAddr s) (i - 1))))
            (if i = 0 then s.prevC else s.mem.block Config.blockSize (srcAddr s) (i - 1))) ∧
      t.prevC = s.mem.block Config.blockSize (srcAddr s) (srcLen s / Config.blockSize - 1) ∧
      t.prevP = t.mem.block Config.blockSize (dstAddr s) (srcLen s / Config.blockSize - 1)

/-- R109: what a successful TRANSFORM of either machine leaves: BLOCKS advanced by `srcL div B` modulo `2^64`, CODE =
OK, the dst tail, every other byte, RESULT, MODE and the operand registers as they were. -/
def Obligations.TransformCompletion : Prop :=
  ∀ s : State, s.Inv Config.params → s.mode ≠ .none → GoodBuffers Config.params s →
    ∃ t, exec .transform s = .next t ∧
      t.blocks.toNat = (s.blocks.toNat + srcLen s / Config.blockSize) % 2 ^ 64 ∧
      t = { s with mem := t.mem, prevC := t.prevC, prevP := t.prevP, blocks := t.blocks, status := okStatus s.status } ∧
      ∀ a, a < dstAddr s ∨ dstAddr s + srcLen s ≤ a → t.mem.read a = s.mem.read a

/-- R101 to R104, R111 and the TRANSFORM row of R144: which error a failing TRANSFORM reports, and that it changes
nothing but STATUS. -/
def Obligations.TransformReportsItsFirstError : Prop :=
  ∀ s : State,
    (s.mode = .none → exec .transform s = .next { s with status := errorStatus s.status 5 }) ∧
    ∀ code, s.mode ≠ .none → FirstBufferError Config.params s code →
      exec .transform s = .next { s with status := errorStatus s.status code }

/-- R118: the outcome of TRANSFORM is a function of MODE, the accumulators, BLOCKS, the operands and the src bytes:
equal operands and modes give the same code, and equal src bytes from equal accumulators give the same output bytes,
accumulators and count, wherever the buffers stand. -/
def Obligations.TransformIsDeterministic : Prop :=
  ∀ s u t v : State, s.Inv Config.params → u.Inv Config.params → s.mode = u.mode →
    exec .transform s = .next t → exec .transform u = .next v →
    (s.op0 = u.op0 → s.op1 = u.op1 → s.op2 = u.op2 → s.op3 = u.op3 → codeField t.status = codeField v.status) ∧
    (codeField t.status = 0 → codeField v.status = 0 → s.prevC = u.prevC → s.prevP = u.prevP → s.blocks = u.blocks →
      srcLen s = srcLen u → s.mem.readBytes (srcAddr s) (srcLen s) = u.mem.readBytes (srcAddr u) (srcLen u) →
      t.mem.readBytes (dstAddr s) (srcLen s) = v.mem.readBytes (dstAddr u) (srcLen u) ∧ t.prevC = v.prevC ∧
        t.prevP = v.prevP ∧ t.blocks = v.blocks)

/-- R113, R114: a chain of the encoder and one of the decoder, built from the same IV bytes; the decoder over the
encoder's output writes the encoder's input, and both chains end with equal accumulators. Between construction and
TRANSFORM the host may change memory and operands at will. -/
def Obligations.DecodingUndoesEncoding : Prop :=
  ∀ s s₁ s₂ t u u₁ u₂ v : State,
    exec .encInit s = .next s₁ → codeField s₁.status = 0 →
    exec .decInit u = .next u₁ → codeField u₁.status = 0 →
    s.mem.readBytes (initIvAddr s) (2 * Config.blockSize) = u.mem.readBytes (initIvAddr u) (2 * Config.blockSize) →
    s₂.mode = s₁.mode → s₂.prevC = s₁.prevC → s₂.prevP = s₁.prevP → s₂.mem.wf →
    u₂.mode = u₁.mode → u₂.prevC = u₁.prevC → u₂.prevP = u₁.prevP → u₂.mem.wf →
    exec .transform s₂ = .next t → codeField t.status = 0 →
    exec .transform u₂ = .next v → codeField v.status = 0 →
    srcLen u₂ = srcLen s₂ →
    u₂.mem.readBytes (srcAddr u₂) (srcLen s₂) = t.mem.readBytes (dstAddr s₂) (srcLen s₂) →
    v.mem.readBytes (dstAddr u₂) (srcLen s₂) = s₂.mem.readBytes (srcAddr s₂) (srcLen s₂) ∧
      s₁.prevC = u₁.prevC ∧ s₁.prevP = u₁.prevP ∧ v.prevC = t.prevC ∧ v.prevP = t.prevP

/-- R113, R114, R110 at any point of a stream: from equal accumulators the decoder undoes the encoder's TRANSFORM and
the accumulators are equal again, so the round trip goes on over every further TRANSFORM. -/
def Obligations.ChainsStayInStep : Prop :=
  ∀ s t u v : State, s.Inv Config.params → u.Inv Config.params → s.mode = .enc → u.mode = .dec →
    s.prevC = u.prevC → s.prevP = u.prevP →
    exec .transform s = .next t → codeField t.status = 0 →
    exec .transform u = .next v → codeField v.status = 0 →
    srcLen u = srcLen s → u.mem.readBytes (srcAddr u) (srcLen s) = t.mem.readBytes (dstAddr s) (srcLen s) →
    v.mem.readBytes (dstAddr u) (srcLen s) = s.mem.readBytes (srcAddr s) (srcLen s) ∧
      v.prevC = t.prevC ∧ v.prevP = t.prevP

/-- From R117: two TRANSFORMs over adjoining buffers do what one TRANSFORM over the whole does, to memory and to the
chain. Here src `A'` stands right behind src `A`. -/
def Obligations.TransformsConcatenate : Prop :=
  ∀ (s t s' v w : State) (a₀ a₁ a₂ a₃ b₁ b₃ : Word),
    exec .transform s = .next t → codeField t.status = 0 →
    s' = { t with op0 := a₀, op1 := a₁, op2 := a₂, op3 := a₃ } →
    a₀.toNat = dstAddr s + srcLen s → a₂.toNat = srcAddr s + srcLen s →
    exec .transform s' = .next v → codeField v.status = 0 →
    b₃.toNat = srcLen s + a₃.toNat →
    exec .transform { s with op1 := b₁, op3 := b₃ } = .next w → codeField w.status = 0 →
    v.mem = w.mem ∧ v.mode = w.mode ∧ v.prevC = w.prevC ∧ v.prevP = w.prevP ∧ v.blocks = w.blocks

/-- R116: decoding two ciphertexts that first differ in block `k` gives equal plaintext blocks before `k`, and
different plaintext blocks `k`. -/
def Obligations.GarbleStartsAtTheChangedBlock : Prop :=
  ∀ (s t u v : State) (k : Nat), s.Inv Config.params → u.Inv Config.params → s.mode = .dec → u.mode = .dec →
    s.prevC = u.prevC → s.prevP = u.prevP →
    exec .transform s = .next t → codeField t.status = 0 →
    exec .transform u = .next v → codeField v.status = 0 →
    srcLen u = srcLen s → k < srcLen s / Config.blockSize →
    (∀ i, i < k → s.mem.block Config.blockSize (srcAddr s) i = u.mem.block Config.blockSize (srcAddr u) i) →
    s.mem.block Config.blockSize (srcAddr s) k ≠ u.mem.block Config.blockSize (srcAddr u) k →
    (∀ i, i < k → t.mem.block Config.blockSize (dstAddr s) i = v.mem.block Config.blockSize (dstAddr u) i) ∧
      t.mem.block Config.blockSize (dstAddr s) k ≠ v.mem.block Config.blockSize (dstAddr u) k

/-! ### One-shot commands -/

/-- R130: ENC_ONCE as its pseudocode has it: its errors in order, and on good operands the encoder's chain from the
IV in memory, with memory outside dst, the chain context, RESULT and the operand registers as they were. -/
def Obligations.EncOnceFollowsItsPseudocode : Prop :=
  decode 0x0000000000000005 = .ok .encOnce ∧ ∀ s : State, s.Inv Config.params →
    (onceIvLen s ≠ 2 * Config.blockSize → exec .encOnce s = .next { s with status := errorStatus s.status 1 }) ∧
    (onceIvLen s = 2 * Config.blockSize → 2 ^ 64 < onceIvAddr s + 2 * Config.blockSize →
      exec .encOnce s = .next { s with status := errorStatus s.status 7 }) ∧
    (∀ code, GoodIv Config.params (onceIvAddr s) (onceIvLen s) → FirstBufferError Config.params s code →
      exec .encOnce s = .next { s with status := errorStatus s.status code }) ∧
    (GoodIv Config.params (onceIvAddr s) (onceIvLen s) → GoodBuffers Config.params s →
      ∃ t, exec .encOnce s = .next t ∧ t = { s with mem := t.mem, status := okStatus s.status } ∧
        (∀ i, i < srcLen s / Config.blockSize →
          t.mem.block Config.blockSize (dstAddr s) i =
            xorBytes
              (Config.enc (xorBytes (s.mem.block Config.blockSize (srcAddr s) i)
                (if i = 0 then s.mem.readBytes (onceIvAddr s) Config.blockSize
                 else t.mem.block Config.blockSize (dstAddr s) (i - 1))))
              (if i = 0 then s.mem.readBytes (onceIvAddr s + Config.blockSize) Config.blockSize
               else s.mem.block Config.blockSize (srcAddr s) (i - 1))) ∧
        ∀ a, a < dstAddr s ∨ dstAddr s + srcLen s ≤ a → t.mem.read a = s.mem.read a)

/-- R131: DEC_ONCE as its pseudocode has it. -/
def Obligations.DecOnceFollowsItsPseudocode : Prop :=
  decode 0x0000000000000006 = .ok .decOnce ∧ ∀ s : State, s.Inv Config.params →
    (onceIvLen s ≠ 2 * Config.blockSize → exec .decOnce s = .next { s with status := errorStatus s.status 1 }) ∧
    (onceIvLen s = 2 * Config.blockSize → 2 ^ 64 < onceIvAddr s + 2 * Config.blockSize →
      exec .decOnce s = .next { s with status := errorStatus s.status 7 }) ∧
    (∀ code, GoodIv Config.params (onceIvAddr s) (onceIvLen s) → FirstBufferError Config.params s code →
      exec .decOnce s = .next { s with status := errorStatus s.status code }) ∧
    (GoodIv Config.params (onceIvAddr s) (onceIvLen s) → GoodBuffers Config.params s →
      ∃ t, exec .decOnce s = .next t ∧ t = { s with mem := t.mem, status := okStatus s.status } ∧
        (∀ i, i < srcLen s / Config.blockSize →
          t.mem.block Config.blockSize (dstAddr s) i =
            xorBytes
              (Config.dec (xorBytes (s.mem.block Config.blockSize (srcAddr s) i)
                (if i = 0 then s.mem.readBytes (onceIvAddr s + Config.blockSize) Config.blockSize
                 else t.mem.block Config.blockSize (dstAddr s) (i - 1))))
              (if i = 0 then s.mem.readBytes (onceIvAddr s) Config.blockSize
               else s.mem.block Config.blockSize (srcAddr s) (i - 1))) ∧
        ∀ a, a < dstAddr s ∨ dstAddr s + srcLen s ≤ a → t.mem.read a = s.mem.read a)

/-- R132: a one-shot command, successful or not, reads and writes no part of the chain context and no RESULT: with
other values there it does the same and leaves those values. -/
def Obligations.OneShotKeepsTheChainContext : Prop :=
  ∀ (i : Instr) (s t : State) (m : Mode) (c p : Bytes) (n r : Word), i = .encOnce ∨ i = .decOnce → exec i s = .next t →
    (t.mode = s.mode ∧ t.prevC = s.prevC ∧ t.prevP = s.prevP ∧ t.blocks = s.blocks ∧ t.result = s.result) ∧
      exec i { s with mode := m, prevC := c, prevP := p, blocks := n, result := r } =
        .next { t with mode := m, prevC := c, prevP := p, blocks := n, result := r }

/-- R133: a one-shot command has the memory effect and the code of the construction and the TRANSFORM it stands for;
an IV error stops it with the construction's code. -/
def Obligations.OneShotEqualsConstructThenTransform : Prop :=
  ∀ (once init : Instr) (s t u : State),
    (once = .encOnce ∧ init = .encInit) ∨ (once = .decOnce ∧ init = .decInit) →
    exec once s = .next t → exec init { s with op0 := s.op4, op1 := s.op5 } = .next u →
    (codeField u.status ≠ 0 → codeField t.status = codeField u.status ∧ t.mem = s.mem) ∧
    (codeField u.status = 0 → ∀ v, exec .transform { u with op0 := s.op0, op1 := s.op1 } = .next v →
      t.mem = v.mem ∧ codeField t.status = codeField v.status)

/-- R113, R131, property 1 of 95_test_vectors 1.1: DEC_ONCE over the output of ENC_ONCE, with the same IV bytes, writes
back the original src, wherever the buffers of either stand and whatever ran in between. -/
def Obligations.OneShotRoundTrip : Prop :=
  ∀ s t u v : State, s.mem.wf → u.mem.wf → exec .encOnce s = .next t → codeField t.status = 0 →
    exec .decOnce u = .next v → codeField v.status = 0 →
    s.mem.readBytes (onceIvAddr s) (2 * Config.blockSize) = u.mem.readBytes (onceIvAddr u) (2 * Config.blockSize) →
    srcLen u = srcLen s → u.mem.readBytes (srcAddr u) (srcLen s) = t.mem.readBytes (dstAddr s) (srcLen s) →
    v.mem.readBytes (dstAddr u) (srcLen s) = s.mem.readBytes (srcAddr s) (srcLen s)

/-! ### Errors and STATUS -/

/-- R143: a command that ends with a CODE other than OK changes STATUS and nothing else: CODE is set, ANY_ERROR is
1. -/
def Obligations.FailedCommandChangesOnlyStatus : Prop :=
  ∀ (i : Instr) (s t : State), exec i s = .next t → codeField t.status ≠ 0 →
    t = { s with status := errorStatus s.status (codeField t.status).toNat }

/-- R144: the code every command ends with, over every state: the first error of its order, or OK. An illegal word
ends with ILLEGAL_COMMAND. -/
def Obligations.CodesFollowTheCheckOrder : Prop :=
  (∀ (i : Instr) (s t : State), exec i s = .next t →
    (codeField t.status).toNat =
      match i with
      | .encInit | .decInit => firstIvCode Config.params (initIvAddr s) (initIvLen s)
      | .blocksize => 0
      | .transform => if s.mode = .none then 5 else firstBufferCode Config.params s
      | .encOnce | .decOnce =>
        if firstIvCode Config.params (onceIvAddr s) (onceIvLen s) ≠ 0 then
          firstIvCode Config.params (onceIvAddr s) (onceIvLen s)
        else firstBufferCode Config.params s) ∧
    ∀ (s : State) (w : Word) (rest : List Access), s.bus = .regWrite 0x00 64 w :: rest →
      (w.toNat / 2 ^ 8 ≠ 0 ∨ w.toNat % 2 ^ 8 = 0x00 ∨ 0x07 ≤ w.toNat % 2 ^ 8) →
      ∃ t, step s = .next t ∧ codeField t.status = 6

/-- R145: every CMD write ends, and the code it ends with depends on its word, the operand registers and MODE alone,
not on memory, the accumulators or what ran before. -/
def Obligations.ErrorsDependOnOperandsAndMode : Prop :=
  ∀ (s u : State) (w : Word) (rest rest' : List Access), s.bus = .regWrite 0x00 64 w :: rest →
    u.bus = .regWrite 0x00 64 w :: rest' → s.mode = u.mode → s.op0 = u.op0 → s.op1 = u.op1 → s.op2 = u.op2 →
    s.op3 = u.op3 → s.op4 = u.op4 → s.op5 = u.op5 →
    ∃ t v, step s = .next t ∧ step u = .next v ∧ codeField t.status = codeField v.status

/-- R146: a failed CMD write sets ANY_ERROR, and no step but power-on reset clears it. -/
def Obligations.AnyErrorIsSticky : Prop :=
  (∀ (s t : State) (w : Word) (rest : List Access), s.bus = .regWrite 0x00 64 w :: rest → step s = .next t →
      codeField t.status ≠ 0 → anyErrorField t.status = true) ∧
    (∀ s t : State, step s = .next t → anyErrorField s.status = true → anyErrorField t.status = false →
      ∃ rest, s.bus = .powerOn :: rest) ∧
    ∀ (s t : State) (rest : List Access), s.bus = .powerOn :: rest → step s = .next t →
      anyErrorField t.status = false

/-- R146, R180: in a run without power-on reset, ANY_ERROR = 0 at the end says that it was 0, and CODE was OK, after
every step of the run. -/
def Obligations.NoErrorAtTheEndMeansNoErrorBefore : Prop :=
  ∀ (n k : Nat) (s u t : State), s.Inv Config.params → Access.powerOn ∉ s.bus → k ≤ n →
    Sys2Proof.core.run k s = .next u → Sys2Proof.core.run n s = .next t → anyErrorField t.status = false →
    anyErrorField u.status = false ∧ codeField u.status = 0

/-! ### Who writes what -/

/-- R22, R86: MODE changes only by a successful ENC_INIT (to ENC) or DEC_INIT (to DEC) and by power-on reset (to
NONE). -/
def Obligations.OnlyConstructionAndResetWriteMode : Prop :=
  ∀ s t : State, step s = .next t → t.mode ≠ s.mode →
    (∃ rest, s.bus = .powerOn :: rest ∧ t.mode = .none) ∨
    (∃ w rest, ((s.bus = .regWrite 0x00 64 w :: rest) ∨ ∃ f, s.bus = .racedCommand w f :: rest) ∧
      codeField t.status = 0 ∧ ((decode w = .ok .encInit ∧ t.mode = .enc) ∨ (decode w = .ok .decInit ∧ t.mode = .dec)))

/-- R21, R88: PREV_C and PREV_P change only by a successful ENC_INIT, DEC_INIT or TRANSFORM. -/
def Obligations.OnlyChainCommandsWriteTheAccumulators : Prop :=
  ∀ (i : Instr) (s t : State), exec i s = .next t → t.prevC ≠ s.prevC ∨ t.prevP ≠ s.prevP →
    codeField t.status = 0 ∧ (i = .encInit ∨ i = .decInit ∨ i = .transform)

/-- R23: BLOCKS after every command; no step but a CMD write or power-on reset changes it; and no command reads it to
compute anything else. -/
def Obligations.BlocksCountsThePersistentChain : Prop :=
  (∀ (i : Instr) (s t : State), exec i s = .next t →
    t.blocks.toNat =
      if codeField t.status ≠ 0 then s.blocks.toNat
      else
        match i with
        | .encInit | .decInit => 0
        | .transform => (s.blocks.toNat + srcLen s / Config.blockSize) % 2 ^ 64
        | .blocksize | .encOnce | .decOnce => s.blocks.toNat) ∧
    (∀ s t : State, step s = .next t → t.blocks ≠ s.blocks →
      ∃ rest, s.bus = .powerOn :: rest ∨ ∃ w, s.bus = .regWrite 0x00 64 w :: rest ∨ ∃ f, s.bus = .racedCommand w f :: rest) ∧
    ∀ (i : Instr) (s t : State) (n : Word), exec i s = .next t →
      ∃ m, exec i { s with blocks := n } = .next { t with blocks := m }

/-- R24, R27: no command writes an operand register, and no command but BLOCKSIZE writes RESULT. -/
def Obligations.CommandsKeepOperandsAndResult : Prop :=
  ∀ (i : Instr) (s t : State), exec i s = .next t →
    t.op0 = s.op0 ∧ t.op1 = s.op1 ∧ t.op2 = s.op2 ∧ t.op3 = s.op3 ∧ t.op4 = s.op4 ∧ t.op5 = s.op5 ∧
      (i ≠ .blocksize → t.result = s.result)

/-- R41: the memory a command writes: `M[dst ..< dst + srcL]` for TRANSFORM, ENC_ONCE and DEC_ONCE that succeed, and
nothing for every other command and every failed one. -/
def Obligations.CommandsStoreOnlyToDst : Prop :=
  ∀ (i : Instr) (s t : State), s.Inv Config.params → exec i s = .next t →
    ∀ a, (i ≠ .transform ∧ i ≠ .encOnce ∧ i ≠ .decOnce) ∨ codeField t.status ≠ 0 ∨ a < dstAddr s ∨
        dstAddr s + srcLen s ≤ a →
      t.mem.read a = s.mem.read a

/-! ### Reset and invariants -/

/-- R34, R170: the state after reset, and power-on reset at any point; memory is not touched; with no access waiting
the engine stays as it is. PREV_C and PREV_P are unspecified: only their size is stated. -/
def Obligations.ResetPutsEveryRegisterToItsValue : Prop :=
  (State.reset.mode = .none ∧ State.reset.blocks = 0 ∧ State.reset.status = 0 ∧ State.reset.result = 0 ∧
      State.reset.op0 = 0 ∧ State.reset.op1 = 0 ∧ State.reset.op2 = 0 ∧ State.reset.op3 = 0 ∧ State.reset.op4 = 0 ∧
      State.reset.op5 = 0) ∧
    (∀ (s : State) (rest : List Access), s.bus = .powerOn :: rest →
      ∃ t, step s = .next t ∧ t.mode = .none ∧ t.blocks = 0 ∧ t.status = 0 ∧ t.result = 0 ∧ t.op0 = 0 ∧ t.op1 = 0 ∧
        t.op2 = 0 ∧ t.op3 = 0 ∧ t.op4 = 0 ∧ t.op5 = 0 ∧ t.prevC.length = Config.blockSize ∧
        t.prevP.length = Config.blockSize ∧ t.mem = s.mem ∧ t.bus = rest) ∧
    ∀ s : State, s.bus = [] → step s = .next s

/-- The invariant holds after reset. -/
def Obligations.ResetMeetsTheInvariant : Prop := State.reset.Inv Config.params

/-- Every step keeps the invariant, from every state that has it: the accumulators are blocks, STATUS bits 63:9 are 0
and CODE is legal, an error code goes with ANY_ERROR, RESULT is 0 or `B`, and memory keeps its canonical form with no
address above the address space (R21, R26, R27, R40, R45, R140). -/
def Obligations.StepKeepsTheInvariant : Prop :=
  ∀ s t : State, s.Inv Config.params → step s = .next t → t.Inv Config.params

/-- R30, R34: before a construction nothing the host can do tells what PREV_C and PREV_P hold: two states that differ
only there step alike, to states that differ only there or not at all. -/
def Obligations.ChainIsUnobservableBeforeConstruction : Prop :=
  ∀ (s : State) (c p : Bytes), s.mode = .none →
    match step s with
    | .next t => step { s with prevC := c, prevP := p } = .next t ∨
        (t.mode = .none ∧ step { s with prevC := c, prevP := p } = .next { t with prevC := c, prevP := p })
    | .fault r => step { s with prevC := c, prevP := p } = .fault r
    | .refused r => step { s with prevC := c, prevP := p } = .refused r

/-! ### The host's side -/

/-- R25, R31, R32: what a 64-bit read of each offset gives the host. The answer is appended to the answers, which are
the model's own (log 6). -/
def Obligations.RegisterReadsAnswerTheirRegister : Prop :=
  ∀ (s : State) (offset : Nat) (value : Word) (rest : List Access), s.bus = .regRead offset 64 :: rest →
    (offset, value) ∈ [(0x00, 0), (0x08, s.status), (0x10, s.result),
        (0x18, match s.mode with | .none => 0 | .enc => 1 | .dec => 2), (0x20, s.blocks), (0x28, s.op0),
        (0x30, s.op1), (0x38, s.op2), (0x40, s.op3), (0x48, s.op4), (0x50, s.op5)] ∨
      (0x58 ≤ offset ∧ offset % 8 = 0 ∧ value = 0) →
    step s = .next { s with bus := rest, answers := s.answers ++ [.reg value] }

/-- R24, R31, R32: a 64-bit write of each offset but CMD: an operand register takes the value, a read-only register and
every offset from 0x58 on ignore it. -/
def Obligations.RegisterWritesReachOnlyOperands : Prop :=
  ∀ (s : State) (offset : Nat) (w : Word) (rest : List Access), s.bus = .regWrite offset 64 w :: rest →
    (offset = 0x28 → step s = .next { s with bus := rest, op0 := w }) ∧
    (offset = 0x30 → step s = .next { s with bus := rest, op1 := w }) ∧
    (offset = 0x38 → step s = .next { s with bus := rest, op2 := w }) ∧
    (offset = 0x40 → step s = .next { s with bus := rest, op3 := w }) ∧
    (offset = 0x48 → step s = .next { s with bus := rest, op4 := w }) ∧
    (offset = 0x50 → step s = .next { s with bus := rest, op5 := w }) ∧
    (offset ∈ [0x08, 0x10, 0x18, 0x20] ∨ (0x58 ≤ offset ∧ offset % 8 = 0) → step s = .next { s with bus := rest })

/-- R32: an access of another width, or at an offset that is not a multiple of 8, gets no transition. -/
def Obligations.OtherRegisterAccessesAreRefused : Prop :=
  ∀ (s : State) (offset width : Nat) (w : Word) (rest : List Access), width ≠ 64 ∨ offset % 8 ≠ 0 →
    s.bus = .regWrite offset width w :: rest ∨ s.bus = .regRead offset width :: rest →
    step s = .refused (.undefinedAccess offset width)

/-- R46, R51, R52: bytes the host writes to `M` are what it then reads there, any other range reads as before, and no
engine register changes, the accumulators seeded from an IV there among them. -/
def Obligations.HostMemoryWritesReadBack : Prop :=
  ∀ (s : State) (a b n : Nat) (v : Bytes) (rest : List Access), s.mem.wf → a + v.length ≤ 2 ^ 64 → b + n ≤ 2 ^ 64 →
    (b + n ≤ a ∨ a + v.length ≤ b) →
    s.bus = .memWrite a v :: .memRead a v.length :: .memRead b n :: rest →
    ∃ t, Sys2Proof.core.run 3 s = .next t ∧ t.toEngine = s.toEngine ∧ t.bus = rest ∧
      t.answers = s.answers ++ [.mem v, .mem (s.mem.readBytes b n)]

/-- R66, R67, R68: the expansion of every line, with the offsets of R31. -/
def Obligations.LinesExpandToRegisterWrites : Prop :=
  (∀ a b, expand (.encInit a b) = [.regWrite 0x28 64 (BitVec.ofNat 64 a), .regWrite 0x30 64 (BitVec.ofNat 64 b),
      .regWrite 0x00 64 1]) ∧
    (∀ a b, expand (.decInit a b) = [.regWrite 0x28 64 (BitVec.ofNat 64 a), .regWrite 0x30 64 (BitVec.ofNat 64 b),
      .regWrite 0x00 64 2]) ∧
    expand .blocksize = [.regWrite 0x00 64 3] ∧
    (∀ a b c d, expand (.transform a b c d) = [.regWrite 0x28 64 (BitVec.ofNat 64 a),
      .regWrite 0x30 64 (BitVec.ofNat 64 b), .regWrite 0x38 64 (BitVec.ofNat 64 c),
      .regWrite 0x40 64 (BitVec.ofNat 64 d), .regWrite 0x00 64 4]) ∧
    (∀ a b c d e f, expand (.encOnce a b c d e f) = [.regWrite 0x28 64 (BitVec.ofNat 64 a),
      .regWrite 0x30 64 (BitVec.ofNat 64 b), .regWrite 0x38 64 (BitVec.ofNat 64 c),
      .regWrite 0x40 64 (BitVec.ofNat 64 d), .regWrite 0x48 64 (BitVec.ofNat 64 e),
      .regWrite 0x50 64 (BitVec.ofNat 64 f), .regWrite 0x00 64 5]) ∧
    ∀ a b c d e f, expand (.decOnce a b c d e f) = [.regWrite 0x28 64 (BitVec.ofNat 64 a),
      .regWrite 0x30 64 (BitVec.ofNat 64 b), .regWrite 0x38 64 (BitVec.ofNat 64 c),
      .regWrite 0x40 64 (BitVec.ofNat 64 d), .regWrite 0x48 64 (BitVec.ofNat 64 e),
      .regWrite 0x50 64 (BitVec.ofNat 64 f), .regWrite 0x00 64 6]

/-- R67, R24, R25: running a command line's register writes runs its command on the operands of the line. -/
def Obligations.CommandLinesRunTheirCommand : Prop :=
  ∀ (l : Line) (i : Instr) (s : State) (rest : List Access), l.wf = true → lineCommand l = some i →
    s.bus = expand l ++ rest →
    ∃ u, Sys2Proof.core.run (expand l).length s = exec i u ∧
      match l with
      | .encInit iv ivLen | .decInit iv ivLen =>
        u = { s with bus := rest, op0 := u.op0, op1 := u.op1 } ∧ u.op0.toNat = iv ∧ u.op1.toNat = ivLen
      | .transform dst dstLen src srcLen =>
        u = { s with bus := rest, op0 := u.op0, op1 := u.op1, op2 := u.op2, op3 := u.op3 } ∧ u.op0.toNat = dst ∧
          u.op1.toNat = dstLen ∧ u.op2.toNat = src ∧ u.op3.toNat = srcLen
      | .encOnce dst dstLen src srcLen iv ivLen | .decOnce dst dstLen src srcLen iv ivLen =>
        u = { s with bus := rest, op0 := u.op0, op1 := u.op1, op2 := u.op2, op3 := u.op3, op4 := u.op4, op5 := u.op5 } ∧
          u.op0.toNat = dst ∧ u.op1.toNat = dstLen ∧ u.op2.toNat = src ∧ u.op3.toNat = srcLen ∧ u.op4.toNat = iv ∧
          u.op5.toNat = ivLen
      | .wr _ _ | .rd _ | .blocksize => u = { s with bus := rest }

/-! ### Open values and other agents -/

/-- R112: with ALIAS_CHECK false and a partial overlap, TRANSFORM does not fail: BLOCKS and STATUS as R109 says, no byte
outside `[dst, dst + srcL)` changes, and a one-shot command leaves the chain context alone. Over every lawful cipher;
nothing is said of the open values (log 2). -/
def Obligations.UncheckedOverlapStaysInsideDst : Prop :=
  ∀ (P : Params) (s : State), P.Lawful → P.aliasCheck = false → s.Inv P →
    srcLen s ≠ 0 → srcLen s % P.blockSize = 0 → srcLen s ≤ dstLen s → srcAddr s + srcLen s ≤ 2 ^ 64 →
    dstAddr s + dstLen s ≤ 2 ^ 64 → dstAddr s ≠ srcAddr s → dstAddr s < srcAddr s + srcLen s →
    srcAddr s < dstAddr s + srcLen s →
    (s.mode ≠ .none →
      (commandWith P .transform s).status = okStatus s.status ∧
      (commandWith P .transform s).blocks.toNat = (s.blocks.toNat + srcLen s / P.blockSize) % 2 ^ 64 ∧
      (commandWith P .transform s).mode = s.mode ∧ (commandWith P .transform s).result = s.result ∧
      ∀ a, a < dstAddr s ∨ dstAddr s + srcLen s ≤ a → (commandWith P .transform s).mem.read a = s.mem.read a) ∧
    ∀ i, i = .encOnce ∨ i = .decOnce → GoodIv P (onceIvAddr s) (onceIvLen s) →
      commandWith P i s = { s with
        status := okStatus s.status
        mem := (commandWith P i s).mem
        free := (commandWith P i s).free } ∧
      ∀ a, a < dstAddr s ∨ dstAddr s + srcLen s ≤ a → (commandWith P i s).mem.read a = s.mem.read a

/-- R53, R174: a command whose bytes no other agent touches runs as it does alone. -/
def Obligations.UndisturbedCommandRunsAsAlone : Prop :=
  ∀ (s : State) (w : Word) (f : Foreign) (rest : List Access), s.bus = .racedCommand w f :: rest →
    (∀ i a, decode w = .ok i →
      (covers (footprint Config.params i s).reads a = true → covers f.writes a = false) ∧
      (covers (footprint Config.params i s).writes a = true →
        covers f.reads a = false ∧ covers f.writes a = false)) →
    step s = step { s with bus := .regWrite 0x00 64 w :: rest }

/-- R53, row 13 of 93_implementation_defined: a race opens the bytes of the overlap, what the command reads from it and
what it computes from that, and has no other effect. The overlap is what one side writes and the other reads or writes.
STATUS, MODE, BLOCKS, RESULT and the operand registers are as without the race; a byte outside the overlap that the
command does not write keeps its value. A command that reads no byte of the overlap leaves the accumulators, and every
byte outside the overlap, as without the race; BLOCKSIZE and the one-shot commands leave the accumulators so in any
race. -/
def Obligations.RaceOpensOnlyTheOverlap : Prop :=
  ∀ (s t v : State) (w : Word) (i : Instr) (f : Foreign) (rest : List Access), s.Inv Config.params →
    decode w = .ok i → s.bus = .racedCommand w f :: rest → step s = .next t →
    step { s with bus := .regWrite 0x00 64 w :: rest } = .next v →
    let fp := footprint Config.params i s
    let overlap := fun a => (covers fp.writes a = true ∧ (covers f.reads a = true ∨ covers f.writes a = true)) ∨
      (covers fp.reads a = true ∧ covers f.writes a = true)
    t.status = v.status ∧ t.mode = v.mode ∧ t.blocks = v.blocks ∧ t.result = v.result ∧ t.op0 = v.op0 ∧
      t.op1 = v.op1 ∧ t.op2 = v.op2 ∧ t.op3 = v.op3 ∧ t.op4 = v.op4 ∧ t.op5 = v.op5 ∧
      (∀ a, covers fp.writes a = false → ¬ overlap a → t.mem.read a = s.mem.read a) ∧
      ((∀ a, overlap a → covers fp.reads a = false) →
        t.prevC = v.prevC ∧ t.prevP = v.prevP ∧ ∀ a, ¬ overlap a → t.mem.read a = v.mem.read a) ∧
      (i = .blocksize ∨ i = .encOnce ∨ i = .decOnce → t.prevC = v.prevC ∧ t.prevP = v.prevP)

/-- R10, R53, R152: commands of two different engines of one system, on disjoint byte ranges, commute: either order
ends in the same system. The form of a system, and its engines' one CIPHER, are the model's choice (logs 12, 21). -/
def Obligations.DisjointEnginesCommute : Prop :=
  ∀ (y z₁ z₂ z₃ z₄ : System) (j k : Nat) (wj wk : Word), j ≠ k → y.mem.wf →
    (∀ e ∈ y.engines, Engine.Inv Config.params e) →
    (∀ a, covers (y.footprintOf j wj).writes a = true →
      covers (y.footprintOf k wk).reads a = false ∧ covers (y.footprintOf k wk).writes a = false) →
    (∀ a, covers (y.footprintOf k wk).writes a = true →
      covers (y.footprintOf j wj).reads a = false ∧ covers (y.footprintOf j wj).writes a = false) →
    y.access j (.regWrite 0x00 64 wj) = .next z₁ → z₁.access k (.regWrite 0x00 64 wk) = .next z₂ →
    y.access k (.regWrite 0x00 64 wk) = .next z₃ → z₃.access j (.regWrite 0x00 64 wj) = .next z₄ →
    z₂ = z₄

/-- R10, R152: an access to one engine of a system changes no other engine. -/
def Obligations.EnginesShareOnlyMemory : Prop :=
  ∀ (y z : System) (k j : Nat) (a : Access), y.access k a = .next z → j ≠ k →
    z.engines[j]? = y.engines[j]? ∧ z.engines.length = y.engines.length
end

