-- ==== Sys2Proof/Laws/Config.lean ====
section
/-! SUPPORT. The attached cipher meets its contract (00_scope R7), and the free bytes have the length asked for. -/

namespace Sys2Proof

@[simp] theorem Config.freeBytes_length (k n : Nat) : (Config.freeBytes k n).length = n := by
  simp [Config.freeBytes]

@[simp] theorem Config.params_blockSize : Config.params.blockSize = Config.blockSize := rfl
@[simp] theorem Config.params_enc : Config.params.enc = Config.enc := rfl
@[simp] theorem Config.params_dec : Config.params.dec = Config.dec := rfl
@[simp] theorem Config.params_aliasCheck : Config.params.aliasCheck = true := rfl

theorem Config.blockSize_pos : 1 ≤ Config.blockSize := Nat.succ_pos _

theorem Config.iv_fits : 2 * Config.blockSize < 2 ^ 64 := by
  have := Config.blockSizeIndex.isLt
  simp only [Config.blockSize]
  omega

theorem Config.enc_length (x : Bytes) (h : x.length = Config.blockSize) :
    (Config.enc x).length = Config.blockSize := by
  simp [Config.enc, h]

theorem Config.dec_length (x : Bytes) (h : x.length = Config.blockSize) :
    (Config.dec x).length = Config.blockSize := by
  simp [Config.dec, h]

theorem Config.dec_enc (x : Bytes) (h : x.length = Config.blockSize) : Config.dec (Config.enc x) = x := by
  have hl := Config.enc_length x h
  rw [Config.dec, dif_pos hl]
  have : (⟨(Config.enc x).toArray, hl⟩ : Vector Byte Config.blockSize) = Config.cipher ⟨x.toArray, h⟩ := by
    apply Vector.toList_inj.mp
    simp [Config.enc, h]
  rw [this]
  simp

/-- The parameters of this hardware meet R7. -/
theorem Config.params_lawful : Config.params.Lawful where
  blockSize_pos := Config.blockSize_pos
  iv_fits := Config.iv_fits
  enc_length := Config.enc_length
  dec_length := Config.dec_length
  dec_enc := Config.dec_enc

/-- `Dec` tells different blocks apart (R116). -/
theorem Config.dec_injective {x y : Bytes} (hx : x.length = Config.blockSize) (hy : y.length = Config.blockSize)
    (h : Config.dec x = Config.dec y) : x = y := by
  simp only [Config.dec, hx, hy, dif_pos] at h
  simpa using congrArg Vector.toList (Config.cipher.symm.injective (Vector.toList_inj.mp h))

end Sys2Proof
end

