-- ==== Sys2Proof/Laws/Memory.lean ====
section
/-! SUPPORT. The laws of the byte memory (20_memory R40, R46): a read after a write, what a write leaves alone, and the
canonical form that every operation keeps. -/

namespace Sys2Proof.Machine

theorem Memory.read_entry_same (m : Memory) (a : Nat) (v : Byte) (h : ∀ c ∈ m, a < c.1) :
    (Memory.entry a v m).read a = v := by
  have absent : m.read a = unlistedByte := by
    clear v
    induction m with
    | nil => rfl
    | cons c rest ih =>
      have hc := h c (by simp)
      simp only [Memory.read]
      rw [if_neg (by omega)]
      exact ih fun d hd => h d (by simp [hd])
  unfold Memory.entry
  split
  · next hv => rw [absent, hv]
  · simp [Memory.read]

theorem Memory.read_entry_other (m : Memory) (a b : Nat) (v : Byte) (h : b ≠ a) :
    (Memory.entry a v m).read b = m.read b := by
  unfold Memory.entry
  split
  · rfl
  · simp [Memory.read, Ne.symm h]

/-- A read of an address below every listed one finds the unlisted byte. -/
theorem Memory.read_below (m : Memory) (a : Nat) (h : ∀ c ∈ m, a < c.1) : m.read a = unlistedByte := by
  induction m with
  | nil => rfl
  | cons c rest ih =>
    have hc := h c (by simp)
    simp only [Memory.read]
    rw [if_neg (by omega)]
    exact ih fun d hd => h d (by simp [hd])

/-- A read returns the byte last written there (R46). -/
theorem Memory.read_write_same (m : Memory) (hm : m.wf) (a : Nat) (v : Byte) : (m.write a v).read a = v := by
  obtain ⟨hs, -⟩ := hm
  induction m with
  | nil => exact Memory.read_entry_same [] a v (by simp)
  | cons c rest ih =>
    obtain ⟨hc, hr⟩ := List.pairwise_cons.mp hs
    simp only [Memory.write]
    split
    · next h =>
      refine Memory.read_entry_same _ a v fun d hd => ?_
      rcases List.mem_cons.mp hd with rfl | hd
      · exact h
      · exact lt_trans h (hc d hd)
    · split
      · next h => exact Memory.read_entry_same rest a v fun d hd => h ▸ hc d hd
      · next h =>
        simp only [Memory.read]
        rw [if_neg (Ne.symm h)]
        exact ih hr

/-- A write changes only its byte (R46). -/
theorem Memory.read_write_other (m : Memory) (a b : Nat) (v : Byte) (h : b ≠ a) :
    (m.write a v).read b = m.read b := by
  induction m with
  | nil => exact Memory.read_entry_other [] a b v h
  | cons c rest ih =>
    simp only [Memory.write]
    split
    · exact Memory.read_entry_other _ a b v h
    · split
      · next hac =>
        rw [Memory.read_entry_other _ a b v h]
        simp only [Memory.read]
        rw [if_neg (by omega)]
      · simp only [Memory.read, ih]

theorem Memory.mem_entry {m : Memory} {a : Nat} {v : Byte} {c : Host.Cell} (h : c ∈ Memory.entry a v m) :
    (c = (a, v) ∧ v ≠ unlistedByte) ∨ c ∈ m := by
  unfold Memory.entry at h
  split at h
  · exact .inr h
  · next hv =>
    rcases List.mem_cons.mp h with h | h
    · exact .inl ⟨h, hv⟩
    · exact .inr h

theorem Memory.mem_write {m : Memory} {a : Nat} {v : Byte} {c : Host.Cell} (h : c ∈ m.write a v) :
    (c = (a, v) ∧ v ≠ unlistedByte) ∨ c ∈ m := by
  induction m with
  | nil => exact Memory.mem_entry h
  | cons d rest ih =>
    simp only [Memory.write] at h
    split at h
    · exact Memory.mem_entry h
    · split at h
      · rcases Memory.mem_entry h with h | h
        · exact .inl h
        · exact .inr (by simp [h])
      · rcases List.mem_cons.mp h with h | h
        · exact .inr (by simp [h])
        · rcases ih h with h | h
          · exact .inl h
          · exact .inr (by simp [h])

theorem Memory.pairwise_entry {m : Memory} {a : Nat} {v : Byte} (hm : m.Pairwise (fun c d => c.1 < d.1))
    (h : ∀ c ∈ m, a < c.1) : (Memory.entry a v m).Pairwise (fun c d => c.1 < d.1) := by
  unfold Memory.entry
  split
  · exact hm
  · exact List.pairwise_cons.mpr ⟨h, hm⟩

/-- A write inside the address space keeps the canonical form. -/
theorem Memory.write_wf (m : Memory) (hm : m.wf) (a : Nat) (ha : a < 2 ^ 64) (v : Byte) : (m.write a v).wf := by
  obtain ⟨hs, hl⟩ := hm
  refine ⟨?_, fun c hc => ?_⟩
  · clear hl
    induction m with
    | nil => exact Memory.pairwise_entry .nil (by simp)
    | cons c rest ih =>
      obtain ⟨hc, hr⟩ := List.pairwise_cons.mp hs
      simp only [Memory.write]
      split
      · next h =>
        refine Memory.pairwise_entry hs fun d hd => ?_
        rcases List.mem_cons.mp hd with rfl | hd
        · exact h
        · exact lt_trans h (hc d hd)
      · split
        · next h => exact Memory.pairwise_entry hr fun d hd => h ▸ hc d hd
        · next h1 h2 =>
          refine List.pairwise_cons.mpr ⟨fun d hd => ?_, ih hr⟩
          rcases Memory.mem_write hd with ⟨rfl, -⟩ | hd
          · simp only; omega
          · exact hc d hd
  · rcases Memory.mem_write hc with ⟨rfl, hv⟩ | hc
    · exact ⟨ha, hv⟩
    · exact hl c hc

@[simp] theorem Memory.readBytes_length (m : Memory) (a n : Nat) : (m.readBytes a n).length = n := by
  simp [Memory.readBytes]

@[simp] theorem Memory.block_length (m : Memory) (b a i : Nat) : (m.block b a i).length = b := by
  simp [Memory.block]

/-- Two memories that read alike over a range give the same bytes there. -/
theorem Memory.readBytes_congr {m m' : Memory} {a n : Nat}
    (h : ∀ x, a ≤ x → x < a + n → m.read x = m'.read x) : m.readBytes a n = m'.readBytes a n := by
  refine List.map_congr_left fun k hk => ?_
  have := List.mem_range.mp hk
  exact h _ (by omega) (by omega)

/-- A range read in two parts (R12). -/
theorem Memory.readBytes_add (m : Memory) (a n k : Nat) :
    m.readBytes a (n + k) = m.readBytes a n ++ m.readBytes (a + n) k := by
  simp [Memory.readBytes, List.range_add, Nat.add_assoc, Function.comp_def]

/-- A wide write leaves every byte outside its range alone. -/
theorem Memory.read_writeBytes_outside (m : Memory) (v : Bytes) (a x : Nat) (h : x < a ∨ a + v.length ≤ x) :
    (m.writeBytes a v).read x = m.read x := by
  induction v generalizing m a with
  | nil => rfl
  | cons b rest ih =>
    simp only [List.length_cons] at h
    rw [Memory.writeBytes, ih (m.write a b) (a + 1) (by omega)]
    exact Memory.read_write_other m a x b (by omega)

/-- A wide write inside the address space keeps the canonical form. -/
theorem Memory.writeBytes_wf (m : Memory) (hm : m.wf) (v : Bytes) (a : Nat) (ha : a + v.length ≤ 2 ^ 64) :
    (m.writeBytes a v).wf := by
  induction v generalizing m a with
  | nil => exact hm
  | cons b rest ih =>
    simp only [List.length_cons] at ha
    exact ih _ (Memory.write_wf m hm a (by omega) b) _ (by omega)

/-- A wide read of what a wide write put there gives it back. -/
theorem Memory.readBytes_writeBytes_same (m : Memory) (hm : m.wf) (v : Bytes) (a : Nat)
    (ha : a + v.length ≤ 2 ^ 64) : (m.writeBytes a v).readBytes a v.length = v := by
  induction v generalizing m a with
  | nil => rfl
  | cons b rest ih =>
    simp only [List.length_cons] at ha ⊢
    have hw := Memory.write_wf m hm a (by omega) b
    rw [Nat.add_comm rest.length 1, Memory.readBytes_add, Memory.writeBytes, ih _ hw _ (by omega)]
    have hb : ((m.write a b).writeBytes (a + 1) rest).readBytes a 1 = [b] := by
      simp [Memory.readBytes, Memory.read_writeBytes_outside _ _ _ a (.inl (Nat.lt_succ_self a)),
        Memory.read_write_same m hm]
    rw [hb, List.singleton_append]

/-- A wide read outside a wide write gives what it gave before. -/
theorem Memory.readBytes_writeBytes_outside (m : Memory) (v : Bytes) (a x n : Nat)
    (h : x + n ≤ a ∨ a + v.length ≤ x) : (m.writeBytes a v).readBytes x n = m.readBytes x n :=
  Memory.readBytes_congr fun y _ _ => Memory.read_writeBytes_outside m v a y (by omega)

/-- A read finds a listed byte (R40). -/
theorem Memory.read_mem {m : Memory} (hm : m.Pairwise (fun c d => c.1 < d.1)) {c : Host.Cell} (hc : c ∈ m) :
    m.read c.1 = c.2 := by
  induction m with
  | nil => simp at hc
  | cons d rest ih =>
    obtain ⟨hd, hr⟩ := List.pairwise_cons.mp hm
    simp only [Memory.read]
    rcases List.mem_cons.mp hc with rfl | hc
    · simp
    · rw [if_neg (by have := hd c hc; omega)]
      exact ih hr hc

/-- Memories in canonical form that read alike everywhere are the same data. -/
theorem Memory.ext_read {m m' : Memory} (hm : m.wf) (hm' : m'.wf) (h : ∀ a, m.read a = m'.read a) : m = m' := by
  induction m generalizing m' with
  | nil =>
    cases m' with
    | nil => rfl
    | cons d rest =>
      have := h d.1
      rw [Memory.read_mem hm'.1 (by simp : d ∈ d :: rest)] at this
      exact absurd this.symm (hm'.2 d (by simp)).2
  | cons c rest ih =>
    cases m' with
    | nil =>
      have := h c.1
      rw [Memory.read_mem hm.1 (by simp : c ∈ c :: rest)] at this
      exact absurd this (hm.2 c (by simp)).2
    | cons d rest' =>
      obtain ⟨hc, hr⟩ := List.pairwise_cons.mp hm.1
      obtain ⟨hd, hr'⟩ := List.pairwise_cons.mp hm'.1
      have readc := h c.1
      have readd := h d.1
      rw [Memory.read_mem hm.1 (by simp : c ∈ c :: rest)] at readc
      rw [Memory.read_mem hm'.1 (by simp : d ∈ d :: rest')] at readd
      have same : c.1 = d.1 := by
        rcases lt_trichotomy c.1 d.1 with hlt | heq | hgt
        · rw [Memory.read_below (d :: rest') c.1 fun e he => by
            rcases List.mem_cons.mp he with rfl | he
            · exact hlt
            · exact lt_trans hlt (hd e he)] at readc
          exact absurd readc (hm.2 c (by simp)).2
        · exact heq
        · rw [Memory.read_below (c :: rest) d.1 fun e he => by
            rcases List.mem_cons.mp he with rfl | he
            · exact hgt
            · exact lt_trans hgt (hc e he)] at readd
          exact absurd readd.symm (hm'.2 d (by simp)).2
      have hcd : c = d := by
        refine Prod.ext same ?_
        rw [readc, same, Memory.read_mem hm'.1 (by simp : d ∈ d :: rest')]
      subst hcd
      rw [ih ⟨hr, fun e he => hm.2 e (by simp [he])⟩ ⟨hr', fun e he => hm'.2 e (by simp [he])⟩]
      intro a
      have ha := h a
      simp only [Memory.read] at ha
      split at ha
      · next hca =>
        rw [Memory.read_below rest a fun e he => hca ▸ hc e he, Memory.read_below rest' a fun e he => hca ▸ hd e he]
      · exact ha

/-- Two memories give the same bytes over a range exactly when they read alike there. -/
theorem Memory.readBytes_eq_iff (m m' : Memory) (a n : Nat) :
    m.readBytes a n = m'.readBytes a n ↔ ∀ x, a ≤ x → x < a + n → m.read x = m'.read x := by
  refine ⟨fun h x h1 h2 => ?_, Memory.readBytes_congr⟩
  have := congrArg (fun l => l[x - a]?) h
  simp only [Memory.readBytes, List.getElem?_map, List.getElem?_range (show x - a < n by omega), Option.map_some,
    Option.some.injEq] at this
  rwa [show a + (x - a) = x by omega] at this

/-- Buffers of `n` blocks are equal exactly when their blocks are (R42). -/
theorem Memory.blocks_eq_iff (m m' : Memory) (b a a' n : Nat) :
    m.readBytes a (n * b) = m'.readBytes a' (n * b) ↔ ∀ i < n, m.block b a i = m'.block b a' i := by
  induction n with
  | zero => simp [Memory.readBytes]
  | succ k ih =>
    rw [Nat.succ_mul, Memory.readBytes_add, Memory.readBytes_add]
    refine ⟨fun h i hi => ?_, fun h => ?_⟩
    · obtain ⟨h1, h2⟩ := List.append_inj h (by simp)
      rcases Nat.lt_succ_iff_lt_or_eq.mp hi with hi | rfl
      · exact ih.mp h1 i hi
      · exact h2
    · rw [ih.mpr fun i hi => h i (by omega)]
      have := h k (by omega)
      rw [Memory.block, Memory.block, blockAddr, blockAddr] at this
      rw [this]

end Sys2Proof.Machine
end

