-- ==== Sys2Proof/Laws/Chain.lean ====
section
/-! SUPPORT. The laws of the chain steps and of the block loop (41_transform R105 to R109, R113, R115). -/

namespace Sys2Proof.Machine

variable {P : Params}

@[simp] theorem xorBytes_length (a b : Bytes) : (xorBytes a b).length = min a.length b.length := by
  simp [xorBytes]

/-- XOR is its own inverse on sequences of one length (R115). -/
theorem xorBytes_cancel (a b : Bytes) (h : a.length = b.length) : xorBytes (xorBytes a b) b = a := by
  induction a generalizing b with
  | nil => simp [xorBytes]
  | cons x xs ih =>
    cases b with
    | nil => simp at h
    | cons y ys =>
      have := ih ys (by simpa using h)
      simp only [xorBytes, List.zipWith_cons_cons, List.cons.injEq] at this ⊢
      exact ⟨by rw [BitVec.xor_assoc, BitVec.xor_self, BitVec.xor_zero], this⟩

/-- XOR with one block tells different blocks apart (R115). -/
theorem xorBytes_right_injective {a b c : Bytes} (ha : a.length = c.length) (hb : b.length = c.length)
    (h : xorBytes a c = xorBytes b c) : a = b := by
  rw [← xorBytes_cancel a c ha, h, xorBytes_cancel b c hb]

@[simp] theorem slice_readBytes_first (m : Memory) (a b : Nat) :
    slice (m.readBytes a (2 * b)) 0 b = m.readBytes a b := by
  rw [Nat.two_mul, Memory.readBytes_add]
  simp [slice]

@[simp] theorem slice_readBytes_second (m : Memory) (a b : Nat) :
    slice (m.readBytes a (2 * b)) b (2 * b) = m.readBytes (a + b) b := by
  rw [show 2 * b = b + b by omega, Memory.readBytes_add]
  simp [slice]

/-- The output and both accumulators of a step are blocks (R106, R108). -/
theorem chainStep_lengths (hP : P.Lawful) (m : Mode) {x c p : Bytes} (hx : x.length = P.blockSize)
    (hc : c.length = P.blockSize) (hp : p.length = P.blockSize) :
    (chainStep P m x c p).out.length = P.blockSize ∧ (chainStep P m x c p).c.length = P.blockSize ∧
      (chainStep P m x c p).p.length = P.blockSize := by
  unfold chainStep
  split
  · simp [encStep, hx, hp, hP.enc_length (xorBytes x c) (by simp [hx, hc])]
  · simp [decStep, hx, hc, hP.dec_length (xorBytes x p) (by simp [hx, hp])]

/-- The decoder step undoes the encoder step and leaves the same accumulators (R108, R113, R114). -/
theorem decStep_encStep (hP : P.Lawful) {x c p : Bytes} (hx : x.length = P.blockSize) (hc : c.length = P.blockSize)
    (hp : p.length = P.blockSize) :
    decStep P (encStep P x c p).out c p = { out := x, c := (encStep P x c p).c, p := (encStep P x c p).p } := by
  have hxc : (xorBytes x c).length = P.blockSize := by simp [hx, hc]
  simp only [encStep, decStep, xorBytes_cancel _ p (by rw [hP.enc_length _ hxc, hp]), hP.dec_enc _ hxc,
    xorBytes_cancel x c (by rw [hx, hc])]

@[simp] theorem chainRun_zero (m : Mode) (d a : Nat) (l : Loop) : chainRun P m d a 0 l = l := rfl

theorem chainRun_succ (m : Mode) (d a k : Nat) (l : Loop) :
    chainRun P m d a (k + 1) l = blockStep P m d a k (chainRun P m d a k l) := rfl

@[simp] theorem chainRun_free (m : Mode) (d a n : Nat) (l : Loop) : (chainRun P m d a n l).free = l.free := by
  induction n with
  | zero => rfl
  | succ k ih => rw [chainRun_succ, blockStep, ih]

/-- The block loop does not read the count of free values. -/
theorem chainRun_setFree (m : Mode) (d a n : Nat) (l : Loop) (k : Nat) :
    chainRun P m d a n { l with free := k } = { chainRun P m d a n l with free := k } := by
  induction n with
  | zero => rfl
  | succ j ih => rw [chainRun_succ, ih]; rfl

/-- The accumulators stay blocks through the loop (R21). -/
theorem chainRun_lengths (hP : P.Lawful) (m : Mode) (d a n : Nat) {l : Loop} (hc : l.c.length = P.blockSize)
    (hp : l.p.length = P.blockSize) :
    (chainRun P m d a n l).c.length = P.blockSize ∧ (chainRun P m d a n l).p.length = P.blockSize := by
  induction n with
  | zero => exact ⟨hc, hp⟩
  | succ k ih =>
    rw [chainRun_succ]
    exact (chainStep_lengths hP m (Memory.block_length ..) ih.1 ih.2).2

/-- The output block of loop index `k` is a block. -/
theorem chainRun_out_length (hP : P.Lawful) (m : Mode) (d a k : Nat) {l : Loop} (hc : l.c.length = P.blockSize)
    (hp : l.p.length = P.blockSize) (x : Bytes) (hx : x.length = P.blockSize) :
    (chainStep P m x (chainRun P m d a k l).c (chainRun P m d a k l).p).out.length = P.blockSize :=
  have h := chainRun_lengths hP m d a k hc hp
  (chainStep_lengths hP m hx h.1 h.2).1

/-- The loop writes only the dst blocks (R109). -/
theorem chainRun_read_outside (hP : P.Lawful) (m : Mode) (d a n : Nat) {l : Loop} (hc : l.c.length = P.blockSize)
    (hp : l.p.length = P.blockSize) (x : Nat) (hx : x < d ∨ d + n * P.blockSize ≤ x) :
    (chainRun P m d a n l).mem.read x = l.mem.read x := by
  induction n with
  | zero => rfl
  | succ k ih =>
    rw [Nat.succ_mul] at hx
    rw [chainRun_succ, blockStep, Memory.read_writeBytes_outside, ih (by omega)]
    rw [chainRun_out_length hP m d a k hc hp _ (Memory.block_length ..), blockAddr]
    omega

/-- The loop keeps the canonical form of memory while its dst range is in range (R45). -/
theorem chainRun_wf (hP : P.Lawful) (m : Mode) (d a n : Nat) {l : Loop} (hc : l.c.length = P.blockSize)
    (hp : l.p.length = P.blockSize) (hm : l.mem.wf) (hd : d + n * P.blockSize ≤ 2 ^ 64) :
    (chainRun P m d a n l).mem.wf := by
  induction n with
  | zero => exact hm
  | succ k ih =>
    rw [Nat.succ_mul] at hd
    rw [chainRun_succ, blockStep]
    refine Memory.writeBytes_wf _ (ih (by omega)) _ _ ?_
    rw [chainRun_out_length hP m d a k hc hp _ (Memory.block_length ..), blockAddr]
    omega

theorem racedChainRun_succ (m : Mode) (rs : List Nat) (d a k : Nat) (l : Loop) :
    racedChainRun P m rs d a (k + 1) l =
      if touches rs (blockAddr P.blockSize a k) P.blockSize then
        openChain P (blockStep P m d a k (racedChainRun P m rs d a k l))
      else blockStep P m d a k (racedChainRun P m rs d a k l) := rfl

/-- A raced block loop that meets no raced byte is the block loop (R105). -/
theorem racedChainRun_untouched (m : Mode) (rs : List Nat) (d a n : Nat) (l : Loop)
    (h : ∀ k < n, touches rs (blockAddr P.blockSize a k) P.blockSize = false) :
    racedChainRun P m rs d a n l = chainRun P m d a n l := by
  induction n with
  | zero => rfl
  | succ k ih =>
    rw [racedChainRun_succ, h k (Nat.lt_succ_self k), if_neg Bool.false_ne_true,
      ih fun i hi => h i (Nat.lt_succ_of_lt hi), chainRun_succ]

/-- The accumulators stay blocks through a raced block loop too; it writes only the dst blocks, and keeps the canonical
form of memory while its dst range is in range (R21, R45, R109). -/
theorem racedChainRun_spec (hP : P.Lawful) (m : Mode) (rs : List Nat) (d a n : Nat) {l : Loop}
    (hc : l.c.length = P.blockSize) (hp : l.p.length = P.blockSize) :
    (racedChainRun P m rs d a n l).c.length = P.blockSize ∧ (racedChainRun P m rs d a n l).p.length = P.blockSize ∧
      (∀ x, x < d ∨ d + n * P.blockSize ≤ x → (racedChainRun P m rs d a n l).mem.read x = l.mem.read x) ∧
      (l.mem.wf → d + n * P.blockSize ≤ 2 ^ 64 → (racedChainRun P m rs d a n l).mem.wf) := by
  induction n with
  | zero => exact ⟨hc, hp, fun _ _ => rfl, fun hm _ => hm⟩
  | succ k ih =>
    obtain ⟨ihc, ihp, ihr, ihw⟩ := ih
    have hs := chainStep_lengths hP m (Memory.block_length (racedChainRun P m rs d a k l).mem P.blockSize a k) ihc ihp
    have hr : ∀ x, x < d ∨ d + (k + 1) * P.blockSize ≤ x →
        (blockStep P m d a k (racedChainRun P m rs d a k l)).mem.read x = l.mem.read x := by
      intro x hx
      rw [Nat.succ_mul] at hx
      rw [blockStep, Memory.read_writeBytes_outside, ihr x (by omega)]
      rw [hs.1, blockAddr]
      omega
    have hw : l.mem.wf → d + (k + 1) * P.blockSize ≤ 2 ^ 64 →
        (blockStep P m d a k (racedChainRun P m rs d a k l)).mem.wf := by
      intro hm hd
      rw [Nat.succ_mul] at hd
      rw [blockStep]
      refine Memory.writeBytes_wf _ (ihw hm (by omega)) _ _ ?_
      rw [hs.1, blockAddr]
      omega
    rw [racedChainRun_succ]
    split
    · exact ⟨by simp [openChain], by simp [openChain], hr, hw⟩
    · exact ⟨hs.2.1, hs.2.2, hr, hw⟩

/-- Blocks of one buffer with different indexes do not meet (R44). -/
theorem blocks_apart (b : Nat) {i j : Nat} (h : i < j) : i * b + b ≤ j * b := by
  rw [← Nat.succ_mul]
  exact Nat.mul_le_mul_right b h

/-- While the loop has done `k` blocks, src blocks from `k` on are as they were: dst is src or apart from it
(R50, R107). -/
theorem chainRun_src_block (hP : P.Lawful) (m : Mode) (d a n k i : Nat) {l : Loop} (hc : l.c.length = P.blockSize)
    (hp : l.p.length = P.blockSize) (hki : k ≤ i) (hin : i < n)
    (hov : d = a ∨ d + n * P.blockSize ≤ a ∨ a + n * P.blockSize ≤ d) :
    (chainRun P m d a k l).mem.block P.blockSize a i = l.mem.block P.blockSize a i := by
  refine Memory.readBytes_congr fun x hx1 hx2 => chainRun_read_outside hP m d a k hc hp x ?_
  have h1 := blocks_apart P.blockSize hin
  have h2 := Nat.mul_le_mul_right P.blockSize hki
  have h3 := Nat.mul_le_mul_right P.blockSize (show k ≤ n by omega)
  rw [blockAddr] at hx1 hx2
  omega

/-- The accumulators after `k` blocks. -/
theorem chainRun_succ_acc (m : Mode) (d a k : Nat) (l : Loop) :
    (chainRun P m d a (k + 1) l).c =
        (chainStep P m ((chainRun P m d a k l).mem.block P.blockSize a k) (chainRun P m d a k l).c
          (chainRun P m d a k l).p).c ∧
      (chainRun P m d a (k + 1) l).p =
        (chainStep P m ((chainRun P m d a k l).mem.block P.blockSize a k) (chainRun P m d a k l).c
          (chainRun P m d a k l).p).p := ⟨rfl, rfl⟩

/-- After the loop, dst block `i` holds the output of step `i` from the src block as it was at the start and the
accumulators after `i` blocks (R105, R107). -/
theorem chainRun_dst_block (hP : P.Lawful) (m : Mode) (d a n i : Nat) {l : Loop} (hc : l.c.length = P.blockSize)
    (hp : l.p.length = P.blockSize) (hm : l.mem.wf) (hd : d + n * P.blockSize ≤ 2 ^ 64) (hin : i < n)
    (hov : d = a ∨ d + n * P.blockSize ≤ a ∨ a + n * P.blockSize ≤ d) :
    (chainRun P m d a n l).mem.block P.blockSize d i =
      (chainStep P m (l.mem.block P.blockSize a i) (chainRun P m d a i l).c (chainRun P m d a i l).p).out := by
  have step : ∀ k, i < k → k ≤ n → (chainRun P m d a k l).mem.block P.blockSize d i =
      (chainStep P m (l.mem.block P.blockSize a i) (chainRun P m d a i l).c (chainRun P m d a i l).p).out := by
    intro k
    induction k with
    | zero => intro h; omega
    | succ k ih =>
      intro hik hkn
      have hlen := chainRun_out_length hP m d a k hc hp _ (Memory.block_length (chainRun P m d a k l).mem
        P.blockSize a k)
      have hkb := blocks_apart P.blockSize (show k < n by omega)
      rw [chainRun_succ, blockStep]
      by_cases hk : i = k
      · subst hk
        have hwf := chainRun_wf hP m d a i hc hp hm (by
          have := Nat.mul_le_mul_right P.blockSize (show i ≤ n by omega); omega)
        have := Memory.readBytes_writeBytes_same _ hwf _ (blockAddr P.blockSize d i)
          (by rw [hlen, blockAddr]; omega)
        rw [hlen] at this
        rw [Memory.block, this, chainRun_src_block hP m d a n i i hc hp le_rfl hin hov]
      · have hik' : i < k := by omega
        rw [Memory.block, Memory.readBytes_writeBytes_outside, ← Memory.block, ih hik' (by omega)]
        have := blocks_apart P.blockSize hik'
        rw [blockAddr, blockAddr]
        omega
  exact step n hin le_rfl

/-- The encoder's accumulators before block `i`: the dst block and the src block before it, or the start values
(R106, R107). -/
theorem chainRun_enc_acc (hP : P.Lawful) (d a n : Nat) {l : Loop} (hc : l.c.length = P.blockSize)
    (hp : l.p.length = P.blockSize) (hm : l.mem.wf) (hd : d + n * P.blockSize ≤ 2 ^ 64)
    (hov : d = a ∨ d + n * P.blockSize ≤ a ∨ a + n * P.blockSize ≤ d) (i : Nat) (hi : i ≤ n) :
    (chainRun P .enc d a i l).c =
        (if i = 0 then l.c else (chainRun P .enc d a n l).mem.block P.blockSize d (i - 1)) ∧
      (chainRun P .enc d a i l).p = (if i = 0 then l.p else l.mem.block P.blockSize a (i - 1)) := by
  cases i with
  | zero => simp
  | succ k =>
    rw [if_neg (by omega), if_neg (by omega), Nat.add_sub_cancel,
      chainRun_dst_block hP .enc d a n k hc hp hm hd (by omega) hov, (chainRun_succ_acc ..).1,
      (chainRun_succ_acc ..).2, chainRun_src_block hP .enc d a n k k hc hp le_rfl (by omega) hov]
    exact ⟨rfl, rfl⟩

/-- The decoder's accumulators before block `i`: the src block and the dst block before it, or the start values
(R107, R108). -/
theorem chainRun_dec_acc (hP : P.Lawful) (d a n : Nat) {l : Loop} (hc : l.c.length = P.blockSize)
    (hp : l.p.length = P.blockSize) (hm : l.mem.wf) (hd : d + n * P.blockSize ≤ 2 ^ 64)
    (hov : d = a ∨ d + n * P.blockSize ≤ a ∨ a + n * P.blockSize ≤ d) (i : Nat) (hi : i ≤ n) :
    (chainRun P .dec d a i l).c = (if i = 0 then l.c else l.mem.block P.blockSize a (i - 1)) ∧
      (chainRun P .dec d a i l).p =
        (if i = 0 then l.p else (chainRun P .dec d a n l).mem.block P.blockSize d (i - 1)) := by
  cases i with
  | zero => simp
  | succ k =>
    rw [if_neg (by omega), if_neg (by omega), Nat.add_sub_cancel,
      chainRun_dst_block hP .dec d a n k hc hp hm hd (by omega) hov, (chainRun_succ_acc ..).1,
      (chainRun_succ_acc ..).2, chainRun_src_block hP .dec d a n k k hc hp le_rfl (by omega) hov]
    exact ⟨rfl, rfl⟩

/-- Two runs over equal src blocks from equal accumulators keep equal accumulators, wherever the buffers stand
(R118). -/
theorem chainRun_acc_congr (hP : P.Lawful) (m : Mode) (d a d' a' n : Nat) {l l' : Loop}
    (hc : l.c.length = P.blockSize) (hp : l.p.length = P.blockSize) (hcc : l.c = l'.c) (hpp : l.p = l'.p)
    (hov : d = a ∨ d + n * P.blockSize ≤ a ∨ a + n * P.blockSize ≤ d)
    (hov' : d' = a' ∨ d' + n * P.blockSize ≤ a' ∨ a' + n * P.blockSize ≤ d') (k : Nat) (hk : k ≤ n)
    (hb : ∀ i < k, l.mem.block P.blockSize a i = l'.mem.block P.blockSize a' i) :
    (chainRun P m d a k l).c = (chainRun P m d' a' k l').c ∧
      (chainRun P m d a k l).p = (chainRun P m d' a' k l').p := by
  induction k with
  | zero => exact ⟨hcc, hpp⟩
  | succ k ih =>
    have ih := ih (by omega) fun i hi => hb i (by omega)
    have e1 := chainRun_src_block hP m d a n k k hc hp le_rfl (by omega) hov
    have e2 := chainRun_src_block hP m d' a' n k k (l := l') (hcc ▸ hc) (hpp ▸ hp) le_rfl (by omega) hov'
    rw [(chainRun_succ_acc ..).1, (chainRun_succ_acc ..).2, (chainRun_succ_acc ..).1, (chainRun_succ_acc ..).2, e1, e2,
      ih.1, ih.2, hb k (by omega)]
    exact ⟨rfl, rfl⟩

/-- Two runs over equal src blocks from equal accumulators write equal dst blocks (R118). -/
theorem chainRun_dst_congr (hP : P.Lawful) (m : Mode) (d a d' a' n : Nat) {l l' : Loop}
    (hc : l.c.length = P.blockSize) (hp : l.p.length = P.blockSize) (hm : l.mem.wf) (hm' : l'.mem.wf)
    (hcc : l.c = l'.c) (hpp : l.p = l'.p) (hd : d + n * P.blockSize ≤ 2 ^ 64) (hd' : d' + n * P.blockSize ≤ 2 ^ 64)
    (hov : d = a ∨ d + n * P.blockSize ≤ a ∨ a + n * P.blockSize ≤ d)
    (hov' : d' = a' ∨ d' + n * P.blockSize ≤ a' ∨ a' + n * P.blockSize ≤ d')
    (hb : ∀ i < n, l.mem.block P.blockSize a i = l'.mem.block P.blockSize a' i) (i : Nat) (hi : i < n) :
    (chainRun P m d a n l).mem.block P.blockSize d i = (chainRun P m d' a' n l').mem.block P.blockSize d' i := by
  have R := chainRun_acc_congr hP m d a d' a' n hc hp hcc hpp hov hov' i hi.le fun j hj => hb j (by omega)
  rw [chainRun_dst_block hP m d a n i hc hp hm hd hi hov,
    chainRun_dst_block hP m d' a' n i (hcc ▸ hc) (hpp ▸ hp) hm' hd' hi hov', R.1, R.2, hb i hi]

/-- A run of `n + k` blocks is a run of `n` and a run of `k` over the buffers behind it (R117). -/
theorem chainRun_add (m : Mode) (d a n k : Nat) (l : Loop) :
    chainRun P m d a (n + k) l =
      chainRun P m (d + n * P.blockSize) (a + n * P.blockSize) k (chainRun P m d a n l) := by
  induction k with
  | zero => rfl
  | succ k ih =>
    have e : ∀ x, blockAddr P.blockSize x (n + k) = blockAddr P.blockSize (x + n * P.blockSize) k := fun x => by
      simp [blockAddr, Nat.add_mul, Nat.add_assoc]
    rw [← Nat.add_assoc, chainRun_succ, chainRun_succ, ih, blockStep, blockStep, Memory.block, Memory.block, e, e]

/-- The decoder over the encoder's output, from equal accumulators: step `k` gives back src block `k` and the
encoder's accumulators (R113). -/
theorem chainStep_dec_enc (hP : P.Lawful) (d a n k : Nat) {l : Loop} (hc : l.c.length = P.blockSize)
    (hp : l.p.length = P.blockSize) (hm : l.mem.wf) (hd : d + n * P.blockSize ≤ 2 ^ 64)
    (hov : d = a ∨ d + n * P.blockSize ≤ a ∨ a + n * P.blockSize ≤ d) (hk : k < n) :
    chainStep P .dec ((chainRun P .enc d a n l).mem.block P.blockSize d k) (chainRun P .enc d a k l).c
        (chainRun P .enc d a k l).p =
      { out := l.mem.block P.blockSize a k, c := (chainRun P .enc d a (k + 1) l).c,
        p := (chainRun P .enc d a (k + 1) l).p } := by
  have hl := chainRun_lengths hP .enc d a k hc hp
  rw [chainRun_dst_block hP .enc d a n k hc hp hm hd hk hov, (chainRun_succ_acc ..).1, (chainRun_succ_acc ..).2,
    chainRun_src_block hP .enc d a n k k hc hp le_rfl hk hov]
  exact decStep_encStep hP (Memory.block_length ..) hl.1 hl.2

/-- The decoder run over the encoder's output, from equal accumulators, keeps the encoder's accumulators (R114). -/
theorem chainRun_dec_enc_acc (hP : P.Lawful) (d a d' a' n : Nat) {l l' : Loop} (hc : l.c.length = P.blockSize)
    (hp : l.p.length = P.blockSize) (hm : l.mem.wf) (hcc : l.c = l'.c) (hpp : l.p = l'.p)
    (hd : d + n * P.blockSize ≤ 2 ^ 64) (hov : d = a ∨ d + n * P.blockSize ≤ a ∨ a + n * P.blockSize ≤ d)
    (hov' : d' = a' ∨ d' + n * P.blockSize ≤ a' ∨ a' + n * P.blockSize ≤ d')
    (hsrc : ∀ i < n, l'.mem.block P.blockSize a' i = (chainRun P .enc d a n l).mem.block P.blockSize d i)
    (k : Nat) (hk : k ≤ n) :
    (chainRun P .dec d' a' k l').c = (chainRun P .enc d a k l).c ∧
      (chainRun P .dec d' a' k l').p = (chainRun P .enc d a k l).p := by
  induction k with
  | zero => exact ⟨hcc.symm, hpp.symm⟩
  | succ k ih =>
    obtain ⟨h1, h2⟩ := ih (by omega)
    have e := chainRun_src_block hP .dec d' a' n k k (hcc ▸ hc) (hpp ▸ hp) le_rfl (by omega) hov'
    rw [(chainRun_succ_acc (m := .dec) ..).1, (chainRun_succ_acc (m := .dec) ..).2, e, h1, h2, hsrc k (by omega),
      chainStep_dec_enc hP d a n k hc hp hm hd hov (by omega)]
    exact ⟨rfl, rfl⟩

end Sys2Proof.Machine
end

