-- ==== Sys2Proof/Laws/State.lean ====
section
/-! SUPPORT. What each named update of the state does to each field: one lemma per field per update, so that no proof
unfolds a record update. -/

namespace Sys2Proof.Machine

variable (s : State)

@[simp] theorem State.setStatus_mode (w : Word) : (s.setStatus w).mode = s.mode := rfl
@[simp] theorem State.setStatus_prevC (w : Word) : (s.setStatus w).prevC = s.prevC := rfl
@[simp] theorem State.setStatus_prevP (w : Word) : (s.setStatus w).prevP = s.prevP := rfl
@[simp] theorem State.setStatus_blocks (w : Word) : (s.setStatus w).blocks = s.blocks := rfl
@[simp] theorem State.setStatus_op0 (w : Word) : (s.setStatus w).op0 = s.op0 := rfl
@[simp] theorem State.setStatus_op1 (w : Word) : (s.setStatus w).op1 = s.op1 := rfl
@[simp] theorem State.setStatus_op2 (w : Word) : (s.setStatus w).op2 = s.op2 := rfl
@[simp] theorem State.setStatus_op3 (w : Word) : (s.setStatus w).op3 = s.op3 := rfl
@[simp] theorem State.setStatus_op4 (w : Word) : (s.setStatus w).op4 = s.op4 := rfl
@[simp] theorem State.setStatus_op5 (w : Word) : (s.setStatus w).op5 = s.op5 := rfl
@[simp] theorem State.setStatus_status (w : Word) : (s.setStatus w).status = w := rfl
@[simp] theorem State.setStatus_result (w : Word) : (s.setStatus w).result = s.result := rfl
@[simp] theorem State.setStatus_mem (w : Word) : (s.setStatus w).mem = s.mem := rfl
@[simp] theorem State.setStatus_free (w : Word) : (s.setStatus w).free = s.free := rfl
@[simp] theorem State.setStatus_bus (w : Word) : (s.setStatus w).bus = s.bus := rfl
@[simp] theorem State.setStatus_answers (w : Word) : (s.setStatus w).answers = s.answers := rfl

@[simp] theorem State.setResult_mode (w : Word) : (s.setResult w).mode = s.mode := rfl
@[simp] theorem State.setResult_prevC (w : Word) : (s.setResult w).prevC = s.prevC := rfl
@[simp] theorem State.setResult_prevP (w : Word) : (s.setResult w).prevP = s.prevP := rfl
@[simp] theorem State.setResult_blocks (w : Word) : (s.setResult w).blocks = s.blocks := rfl
@[simp] theorem State.setResult_op0 (w : Word) : (s.setResult w).op0 = s.op0 := rfl
@[simp] theorem State.setResult_op1 (w : Word) : (s.setResult w).op1 = s.op1 := rfl
@[simp] theorem State.setResult_op2 (w : Word) : (s.setResult w).op2 = s.op2 := rfl
@[simp] theorem State.setResult_op3 (w : Word) : (s.setResult w).op3 = s.op3 := rfl
@[simp] theorem State.setResult_op4 (w : Word) : (s.setResult w).op4 = s.op4 := rfl
@[simp] theorem State.setResult_op5 (w : Word) : (s.setResult w).op5 = s.op5 := rfl
@[simp] theorem State.setResult_status (w : Word) : (s.setResult w).status = s.status := rfl
@[simp] theorem State.setResult_result (w : Word) : (s.setResult w).result = w := rfl
@[simp] theorem State.setResult_mem (w : Word) : (s.setResult w).mem = s.mem := rfl
@[simp] theorem State.setResult_free (w : Word) : (s.setResult w).free = s.free := rfl
@[simp] theorem State.setResult_bus (w : Word) : (s.setResult w).bus = s.bus := rfl
@[simp] theorem State.setResult_answers (w : Word) : (s.setResult w).answers = s.answers := rfl

@[simp] theorem State.setChain_mode (m : Mode) (c p : Bytes) (n : Word) : (s.setChain m c p n).mode = m := rfl
@[simp] theorem State.setChain_prevC (m : Mode) (c p : Bytes) (n : Word) : (s.setChain m c p n).prevC = c := rfl
@[simp] theorem State.setChain_prevP (m : Mode) (c p : Bytes) (n : Word) : (s.setChain m c p n).prevP = p := rfl
@[simp] theorem State.setChain_blocks (m : Mode) (c p : Bytes) (n : Word) : (s.setChain m c p n).blocks = n := rfl
@[simp] theorem State.setChain_op0 (m : Mode) (c p : Bytes) (n : Word) : (s.setChain m c p n).op0 = s.op0 := rfl
@[simp] theorem State.setChain_op1 (m : Mode) (c p : Bytes) (n : Word) : (s.setChain m c p n).op1 = s.op1 := rfl
@[simp] theorem State.setChain_op2 (m : Mode) (c p : Bytes) (n : Word) : (s.setChain m c p n).op2 = s.op2 := rfl
@[simp] theorem State.setChain_op3 (m : Mode) (c p : Bytes) (n : Word) : (s.setChain m c p n).op3 = s.op3 := rfl
@[simp] theorem State.setChain_op4 (m : Mode) (c p : Bytes) (n : Word) : (s.setChain m c p n).op4 = s.op4 := rfl
@[simp] theorem State.setChain_op5 (m : Mode) (c p : Bytes) (n : Word) : (s.setChain m c p n).op5 = s.op5 := rfl
@[simp] theorem State.setChain_status (m : Mode) (c p : Bytes) (n : Word) : (s.setChain m c p n).status = s.status := rfl
@[simp] theorem State.setChain_result (m : Mode) (c p : Bytes) (n : Word) : (s.setChain m c p n).result = s.result := rfl
@[simp] theorem State.setChain_mem (m : Mode) (c p : Bytes) (n : Word) : (s.setChain m c p n).mem = s.mem := rfl
@[simp] theorem State.setChain_free (m : Mode) (c p : Bytes) (n : Word) : (s.setChain m c p n).free = s.free := rfl
@[simp] theorem State.setChain_bus (m : Mode) (c p : Bytes) (n : Word) : (s.setChain m c p n).bus = s.bus := rfl
@[simp] theorem State.setChain_answers (m : Mode) (c p : Bytes) (n : Word) : (s.setChain m c p n).answers = s.answers := rfl

@[simp] theorem State.setMem_mode (m : Memory) : (s.setMem m).mode = s.mode := rfl
@[simp] theorem State.setMem_prevC (m : Memory) : (s.setMem m).prevC = s.prevC := rfl
@[simp] theorem State.setMem_prevP (m : Memory) : (s.setMem m).prevP = s.prevP := rfl
@[simp] theorem State.setMem_blocks (m : Memory) : (s.setMem m).blocks = s.blocks := rfl
@[simp] theorem State.setMem_op0 (m : Memory) : (s.setMem m).op0 = s.op0 := rfl
@[simp] theorem State.setMem_op1 (m : Memory) : (s.setMem m).op1 = s.op1 := rfl
@[simp] theorem State.setMem_op2 (m : Memory) : (s.setMem m).op2 = s.op2 := rfl
@[simp] theorem State.setMem_op3 (m : Memory) : (s.setMem m).op3 = s.op3 := rfl
@[simp] theorem State.setMem_op4 (m : Memory) : (s.setMem m).op4 = s.op4 := rfl
@[simp] theorem State.setMem_op5 (m : Memory) : (s.setMem m).op5 = s.op5 := rfl
@[simp] theorem State.setMem_status (m : Memory) : (s.setMem m).status = s.status := rfl
@[simp] theorem State.setMem_result (m : Memory) : (s.setMem m).result = s.result := rfl
@[simp] theorem State.setMem_mem (m : Memory) : (s.setMem m).mem = m := rfl
@[simp] theorem State.setMem_free (m : Memory) : (s.setMem m).free = s.free := rfl
@[simp] theorem State.setMem_bus (m : Memory) : (s.setMem m).bus = s.bus := rfl
@[simp] theorem State.setMem_answers (m : Memory) : (s.setMem m).answers = s.answers := rfl
@[simp] theorem State.setMem_toEngine (m : Memory) : (s.setMem m).toEngine = s.toEngine := rfl

@[simp] theorem State.setFree_mode (k : Nat) : (s.setFree k).mode = s.mode := rfl
@[simp] theorem State.setFree_prevC (k : Nat) : (s.setFree k).prevC = s.prevC := rfl
@[simp] theorem State.setFree_prevP (k : Nat) : (s.setFree k).prevP = s.prevP := rfl
@[simp] theorem State.setFree_blocks (k : Nat) : (s.setFree k).blocks = s.blocks := rfl
@[simp] theorem State.setFree_op0 (k : Nat) : (s.setFree k).op0 = s.op0 := rfl
@[simp] theorem State.setFree_op1 (k : Nat) : (s.setFree k).op1 = s.op1 := rfl
@[simp] theorem State.setFree_op2 (k : Nat) : (s.setFree k).op2 = s.op2 := rfl
@[simp] theorem State.setFree_op3 (k : Nat) : (s.setFree k).op3 = s.op3 := rfl
@[simp] theorem State.setFree_op4 (k : Nat) : (s.setFree k).op4 = s.op4 := rfl
@[simp] theorem State.setFree_op5 (k : Nat) : (s.setFree k).op5 = s.op5 := rfl
@[simp] theorem State.setFree_status (k : Nat) : (s.setFree k).status = s.status := rfl
@[simp] theorem State.setFree_result (k : Nat) : (s.setFree k).result = s.result := rfl
@[simp] theorem State.setFree_mem (k : Nat) : (s.setFree k).mem = s.mem := rfl
@[simp] theorem State.setFree_free (k : Nat) : (s.setFree k).free = k := rfl
@[simp] theorem State.setFree_bus (k : Nat) : (s.setFree k).bus = s.bus := rfl
@[simp] theorem State.setFree_answers (k : Nat) : (s.setFree k).answers = s.answers := rfl
@[simp] theorem State.setFree_toEngine (k : Nat) : (s.setFree k).toEngine = s.toEngine := rfl

@[simp] theorem State.setBus_mode (b : List Access) : (s.setBus b).mode = s.mode := rfl
@[simp] theorem State.setBus_prevC (b : List Access) : (s.setBus b).prevC = s.prevC := rfl
@[simp] theorem State.setBus_prevP (b : List Access) : (s.setBus b).prevP = s.prevP := rfl
@[simp] theorem State.setBus_blocks (b : List Access) : (s.setBus b).blocks = s.blocks := rfl
@[simp] theorem State.setBus_op0 (b : List Access) : (s.setBus b).op0 = s.op0 := rfl
@[simp] theorem State.setBus_op1 (b : List Access) : (s.setBus b).op1 = s.op1 := rfl
@[simp] theorem State.setBus_op2 (b : List Access) : (s.setBus b).op2 = s.op2 := rfl
@[simp] theorem State.setBus_op3 (b : List Access) : (s.setBus b).op3 = s.op3 := rfl
@[simp] theorem State.setBus_op4 (b : List Access) : (s.setBus b).op4 = s.op4 := rfl
@[simp] theorem State.setBus_op5 (b : List Access) : (s.setBus b).op5 = s.op5 := rfl
@[simp] theorem State.setBus_status (b : List Access) : (s.setBus b).status = s.status := rfl
@[simp] theorem State.setBus_result (b : List Access) : (s.setBus b).result = s.result := rfl
@[simp] theorem State.setBus_mem (b : List Access) : (s.setBus b).mem = s.mem := rfl
@[simp] theorem State.setBus_free (b : List Access) : (s.setBus b).free = s.free := rfl
@[simp] theorem State.setBus_bus (b : List Access) : (s.setBus b).bus = b := rfl
@[simp] theorem State.setBus_answers (b : List Access) : (s.setBus b).answers = s.answers := rfl
@[simp] theorem State.setBus_toEngine (b : List Access) : (s.setBus b).toEngine = s.toEngine := rfl

@[simp] theorem State.answer_mode (x : Answer) : (s.answer x).mode = s.mode := rfl
@[simp] theorem State.answer_prevC (x : Answer) : (s.answer x).prevC = s.prevC := rfl
@[simp] theorem State.answer_prevP (x : Answer) : (s.answer x).prevP = s.prevP := rfl
@[simp] theorem State.answer_blocks (x : Answer) : (s.answer x).blocks = s.blocks := rfl
@[simp] theorem State.answer_op0 (x : Answer) : (s.answer x).op0 = s.op0 := rfl
@[simp] theorem State.answer_op1 (x : Answer) : (s.answer x).op1 = s.op1 := rfl
@[simp] theorem State.answer_op2 (x : Answer) : (s.answer x).op2 = s.op2 := rfl
@[simp] theorem State.answer_op3 (x : Answer) : (s.answer x).op3 = s.op3 := rfl
@[simp] theorem State.answer_op4 (x : Answer) : (s.answer x).op4 = s.op4 := rfl
@[simp] theorem State.answer_op5 (x : Answer) : (s.answer x).op5 = s.op5 := rfl
@[simp] theorem State.answer_status (x : Answer) : (s.answer x).status = s.status := rfl
@[simp] theorem State.answer_result (x : Answer) : (s.answer x).result = s.result := rfl
@[simp] theorem State.answer_mem (x : Answer) : (s.answer x).mem = s.mem := rfl
@[simp] theorem State.answer_free (x : Answer) : (s.answer x).free = s.free := rfl
@[simp] theorem State.answer_bus (x : Answer) : (s.answer x).bus = s.bus := rfl
@[simp] theorem State.answer_answers (x : Answer) : (s.answer x).answers = s.answers ++ [x] := rfl
@[simp] theorem State.answer_toEngine (x : Answer) : (s.answer x).toEngine = s.toEngine := rfl

@[simp] theorem State.setStatus_self : s.setStatus s.status = s := rfl
@[simp] theorem State.setResult_self : s.setResult s.result = s := rfl
@[simp] theorem State.setMem_self : s.setMem s.mem = s := rfl
@[simp] theorem State.setFree_self : s.setFree s.free = s := rfl
@[simp] theorem State.setBus_self : s.setBus s.bus = s := rfl
@[simp] theorem State.setChain_self : s.setChain s.mode s.prevC s.prevP s.blocks = s := rfl

end Sys2Proof.Machine
end

