-- ==== Sys2Proof/Laws/Status.lean ====
section
/-! SUPPORT. The fields of STATUS after a command (10_state R26, 60_exceptions R140, R143, R146). -/

namespace Sys2Proof.Machine

theorem codeField_getElem (w : Word) (i : Nat) (h : i < 8) : (codeField w)[i] = w.getLsbD i := by
  simp [codeField]

theorem reservedStatus_getElem (w : Word) (i : Nat) (h : i < 55) :
    (reservedStatus w)[i] = w.getLsbD (9 + i) := by
  simp [reservedStatus]

theorem getLsbD_withCode (w : Word) (c : BitVec 8) (i : Nat) :
    (withCode w c).getLsbD i = if i < 8 then c.getLsbD i else w.getLsbD i := by
  simp only [withCode, BitVec.getLsbD_append, BitVec.getLsbD_extractLsb']
  split
  · rfl
  · next h =>
    by_cases h' : i < 64
    · simp [show i - 8 < 56 by omega, show 8 + (i - 8) = i by omega]
    · simp [show ¬ (i - 8 < 56) by omega, BitVec.getLsbD_of_ge w i (by omega)]

theorem getLsbD_withAnyError (w : Word) (i : Nat) :
    (withAnyError w).getLsbD i = (w.getLsbD i || decide (i = 8)) := by
  rw [withAnyError, BitVec.getLsbD_or]
  congr 1
  by_cases h : i < 64
  · interval_cases i <;> rfl
  · rw [BitVec.getLsbD_of_ge _ _ (by omega)]
    simp; omega

@[simp] theorem codeField_withCode (w : Word) (c : BitVec 8) : codeField (withCode w c) = c := by
  ext i hi
  rw [codeField_getElem, getLsbD_withCode, if_pos hi, BitVec.getLsbD_eq_getElem]

@[simp] theorem codeField_withAnyError (w : Word) : codeField (withAnyError w) = codeField w := by
  ext i hi
  rw [codeField_getElem, codeField_getElem, getLsbD_withAnyError]
  simp; omega

@[simp] theorem anyErrorField_withCode (w : Word) (c : BitVec 8) :
    anyErrorField (withCode w c) = anyErrorField w := by
  rw [anyErrorField, getLsbD_withCode]; rfl

@[simp] theorem anyErrorField_withAnyError (w : Word) : anyErrorField (withAnyError w) = true := by
  simp [anyErrorField, getLsbD_withAnyError]

@[simp] theorem reservedStatus_withCode (w : Word) (c : BitVec 8) :
    reservedStatus (withCode w c) = reservedStatus w := by
  ext i hi
  rw [reservedStatus_getElem, reservedStatus_getElem, getLsbD_withCode, if_neg (by omega)]

@[simp] theorem reservedStatus_withAnyError (w : Word) : reservedStatus (withAnyError w) = reservedStatus w := by
  ext i hi
  rw [reservedStatus_getElem, reservedStatus_getElem, getLsbD_withAnyError]
  simp; omega

/-- STATUS is its three fields (R26). -/
theorem status_ext {v w : Word} (hc : codeField v = codeField w) (ha : anyErrorField v = anyErrorField w)
    (hr : reservedStatus v = reservedStatus w) : v = w := by
  apply BitVec.eq_of_getLsbD_eq
  intro i hi
  by_cases h8 : i < 8
  · rw [← codeField_getElem v i h8, ← codeField_getElem w i h8]; simp only [hc]
  · by_cases h9 : i = 8
    · subst h9; exact ha
    · have e : 9 + (i - 9) = i := by omega
      have := congrArg (fun b => b.getLsbD (i - 9)) hr
      simpa [reservedStatus, e, show i - 9 < 55 by omega] using this

@[simp] theorem codeField_statusOk (w : Word) : codeField (statusOk w) = 0 := by simp [statusOk]
@[simp] theorem anyErrorField_statusOk (w : Word) : anyErrorField (statusOk w) = anyErrorField w := by simp [statusOk]
@[simp] theorem reservedStatus_statusOk (w : Word) : reservedStatus (statusOk w) = reservedStatus w := by
  simp [statusOk]

@[simp] theorem codeField_statusError (w : Word) (e : ErrorCode) : codeField (statusError w e) = errorCode e := by
  simp [statusError]
@[simp] theorem anyErrorField_statusError (w : Word) (e : ErrorCode) : anyErrorField (statusError w e) = true := by
  simp [statusError]
@[simp] theorem reservedStatus_statusError (w : Word) (e : ErrorCode) :
    reservedStatus (statusError w e) = reservedStatus w := by
  simp [statusError]

theorem codeField_toNat (w : Word) : (codeField w).toNat = w.toNat % 256 := by
  simp [codeField]

theorem reservedStatus_toNat (w : Word) : (reservedStatus w).toNat = w.toNat / 512 := by
  have h := w.isLt
  simp only [reservedStatus, BitVec.extractLsb'_toNat, Nat.shiftRight_eq_div_pow]
  omega

theorem anyErrorField_eq (w : Word) : anyErrorField w = decide (w.toNat / 256 % 2 = 1) := by
  simp [anyErrorField, BitVec.getLsbD, Nat.testBit, Nat.shiftRight_eq_div_pow, Nat.one_and_eq_mod_two]
  rfl

theorem errorStatus_toNat (w : Word) (code : Nat) (h : code < 256) :
    (errorStatus w code).toNat = w.toNat / 512 * 512 + 256 + code := by
  have hw := w.isLt
  rw [errorStatus, BitVec.toNat_ofNat]
  omega

theorem okStatus_toNat (w : Word) : (okStatus w).toNat = w.toNat / 256 * 256 := by
  have hw := w.isLt
  rw [okStatus, BitVec.toNat_ofNat]
  omega

/-- STATUS after success, as a number (R26). -/
theorem statusOk_eq (w : Word) : statusOk w = okStatus w := by
  refine status_ext ?_ ?_ ?_
  · refine BitVec.eq_of_toNat_eq ?_
    rw [codeField_statusOk, codeField_toNat, okStatus_toNat, show (0 : BitVec 8).toNat = 0 from rfl]
    omega
  · rw [anyErrorField_statusOk, anyErrorField_eq, anyErrorField_eq, okStatus_toNat]
    congr 1
    rw [Nat.mul_div_cancel _ (by decide)]
  · refine BitVec.eq_of_toNat_eq ?_
    rw [reservedStatus_statusOk, reservedStatus_toNat, reservedStatus_toNat, okStatus_toNat]
    omega

/-- STATUS after a failure, as a number (R143). -/
theorem statusError_eq (w : Word) (e : ErrorCode) : statusError w e = errorStatus w (errorCode e).toNat := by
  have he := (errorCode e).isLt
  refine status_ext ?_ ?_ ?_
  · refine BitVec.eq_of_toNat_eq ?_
    rw [codeField_statusError, codeField_toNat, errorStatus_toNat w _ he]
    omega
  · rw [anyErrorField_statusError, anyErrorField_eq, errorStatus_toNat w _ he]
    refine (decide_eq_true ?_).symm
    omega
  · refine BitVec.eq_of_toNat_eq ?_
    rw [reservedStatus_statusError, reservedStatus_toNat, reservedStatus_toNat, errorStatus_toNat w _ he]
    omega

/-- No error has the code of success (R140). -/
theorem errorCode_ne_zero (e : ErrorCode) : errorCode e ≠ 0 := by cases e <;> decide

/-- The codes 8 to 255 are never written (R140). -/
theorem errorCode_le (e : ErrorCode) : errorCode e ≤ 7 := by cases e <;> decide

/-- Different errors have different codes (R140). -/
theorem errorCode_injective {e f : ErrorCode} (h : errorCode e = errorCode f) : e = f := by
  cases e <;> cases f <;> first | rfl | exact absurd h (by decide)

end Sys2Proof.Machine
end

