-- ==== Sys2Proof/Laws/Commands.lean ====
section
/-! SUPPORT. What a command can do, said once: its first error and nothing but STATUS, or its effect and success
(00_scope R15, 60_exceptions R143, R144); the checks as facts about the operands; each effect field by field. -/

namespace Sys2Proof.Machine

variable {P : Params}

/-- What a command does when no error applies. -/
def commandEffect (P : Params) (i : Instr) (s : State) : State :=
  match i with
  | .encInit => construct P .enc s
  | .decInit => construct P .dec s
  | .blocksize => s.setResult (BitVec.ofNat 64 P.blockSize)
  | .transform => transformEffect P s
  | .encOnce => onceEffect P .enc s
  | .decOnce => onceEffect P .dec s

theorem commandWith_eq (i : Instr) (s : State) :
    commandWith P i s = guarded (commandError P i s) (commandEffect P i s) s := by
  cases i <;> rfl

/-- Every command answers a next state: the command over this hardware's parameters. -/
theorem exec_eq (i : Instr) (s : State) : exec i s = .next (commandWith Config.params i s) := by
  cases i <;> rfl

/-- The two ends of a command (R15). -/
theorem command_cases (i : Instr) (s : State) :
    (∃ e, commandError P i s = some e ∧ commandWith P i s = raise e s) ∨
      (commandError P i s = none ∧ commandWith P i s = succeed (commandEffect P i s)) := by
  rw [commandWith_eq]
  cases h : commandError P i s with
  | none => exact .inr ⟨rfl, rfl⟩
  | some e => exact .inl ⟨e, rfl, rfl⟩

theorem command_error {i : Instr} {s : State} {e : ErrorCode} (h : commandError P i s = some e) :
    commandWith P i s = raise e s := by
  rw [commandWith_eq, h]; rfl

theorem command_success {i : Instr} {s : State} (h : commandError P i s = none) :
    commandWith P i s = succeed (commandEffect P i s) := by
  rw [commandWith_eq, h]; rfl

@[simp] theorem raise_status (e : ErrorCode) (s : State) : (raise e s).status = statusError s.status e := rfl
@[simp] theorem succeed_status (s : State) : (succeed s).status = statusOk s.status := rfl

/-- Taking an error, with STATUS as a number (R143). -/
theorem raise_eq (e : ErrorCode) (s : State) :
    raise e s = { s with status := errorStatus s.status (errorCode e).toNat } := by
  rw [raise, statusError_eq]; rfl

/-- Success, with STATUS as a number (R26). -/
theorem succeed_eq (s : State) : succeed s = { s with status := okStatus s.status } := by
  rw [succeed, statusOk_eq]; rfl

/-- The effect of a command leaves STATUS to its end. -/
@[simp] theorem commandEffect_status (i : Instr) (s : State) : (commandEffect P i s).status = s.status := by
  cases i <;> rfl

/-- CODE is the error's code, or OK (R140). -/
theorem command_code (i : Instr) (s : State) :
    codeField (commandWith P i s).status = ((commandError P i s).map errorCode).getD 0 := by
  rcases command_cases (P := P) i s with ⟨e, he, h⟩ | ⟨hn, h⟩
  · simp [h, he]
  · simp [h, hn]

theorem command_ok_iff (i : Instr) (s : State) :
    codeField (commandWith P i s).status = 0 ↔ commandError P i s = none := by
  rw [command_code]
  cases h : commandError P i s with
  | none => simp
  | some e => simpa using errorCode_ne_zero e

/-- No command writes an operand register, the host's queue or its answers (R24). -/
theorem command_operands (i : Instr) (s : State) :
    (commandWith P i s).op0 = s.op0 ∧ (commandWith P i s).op1 = s.op1 ∧ (commandWith P i s).op2 = s.op2 ∧
      (commandWith P i s).op3 = s.op3 ∧ (commandWith P i s).op4 = s.op4 ∧ (commandWith P i s).op5 = s.op5 ∧
      (commandWith P i s).bus = s.bus ∧ (commandWith P i s).answers = s.answers := by
  rcases command_cases (P := P) i s with ⟨e, -, h⟩ | ⟨-, h⟩ <;> rw [h]
  · exact ⟨rfl, rfl, rfl, rfl, rfl, rfl, rfl, rfl⟩
  · cases i <;> exact ⟨rfl, rfl, rfl, rfl, rfl, rfl, rfl, rfl⟩

/-- The IV checks pass exactly on a good IV (R80, R81). -/
theorem checkIv_eq_none_iff (a l : Nat) : checkIv P a l = none ↔ GoodIv P a l := by
  unfold checkIv inRange
  constructor
  · intro h
    split at h
    · simp at h
    · next h1 =>
      split at h
      · simp at h
      · next h2 => exact ⟨by simpa using h1, by simpa using h2⟩
  · rintro ⟨rfl, h⟩
    simpa using h

/-- A wrong IV length is the first error of the IV checks (R80). -/
theorem checkIv_length {a l : Nat} (h : l ≠ 2 * P.blockSize) : checkIv P a l = some .configuration := by
  simp [checkIv, h]

/-- An IV range past the top of memory is the error after the length (R81). -/
theorem checkIv_range {a l : Nat} (h : l = 2 * P.blockSize) (hr : 2 ^ 64 < a + 2 * P.blockSize) :
    checkIv P a l = some .addressRange := by
  have : inRange a (2 * P.blockSize) = false := decide_eq_false (by omega)
  rw [checkIv, if_neg (by simpa using h), if_pos this]

theorem partialOverlap_eq_false_iff (d a n : Nat) :
    partialOverlap d a n = false ↔ d = a ∨ d + n ≤ a ∨ a + n ≤ d := by
  unfold partialOverlap
  rw [decide_eq_false_iff_not]
  omega

/-- The buffer checks pass exactly on good buffers, with the alias check on (R101 to R104). -/
theorem checkBuffers_eq_none_iff (hP : P.aliasCheck = true) (s : State) :
    checkBuffers P (dstAddr s) (dstLen s) (srcAddr s) (srcLen s) = none ↔ GoodBuffers P s := by
  unfold checkBuffers
  rw [hP]
  constructor
  · intro h
    split at h
    · simp at h
    · next h1 =>
      split at h
      · simp at h
      · next h2 =>
        split at h
        · simp at h
        · next h3 =>
          split at h
          · simp at h
          · next h4 =>
            simp only [inRange, decide_eq_false_iff_not, true_and, Bool.not_eq_true] at h1 h3 h4
            exact ⟨by tauto, by tauto, by omega, by omega, by omega, (partialOverlap_eq_false_iff ..).mp h4⟩
  · intro h
    have h6 := (partialOverlap_eq_false_iff ..).mpr h.apart
    have := h.positive; have := h.aligned; have := h.size; have := h.srcRange; have := h.dstRange
    rw [if_neg (by tauto), if_neg (by omega), if_neg (by simp [inRange]; omega), if_neg (by simp [h6])]

/-- The error the buffer checks give is the first in their order (R101 to R104, R144). -/
theorem checkBuffers_first (hP : P.aliasCheck = true) {s : State} {code : Nat} (h : FirstBufferError P s code) :
    ∃ e, checkBuffers P (dstAddr s) (dstLen s) (srcAddr s) (srcLen s) = some e ∧ (errorCode e).toNat = code := by
  unfold checkBuffers
  rw [hP]
  rcases h with ⟨rfl, h⟩ | ⟨h1, h2, ⟨rfl, h⟩ | ⟨h3, ⟨rfl, h⟩ | ⟨h4, h5, rfl, h6⟩⟩⟩
  · exact ⟨.bufferAlignment, if_pos h, rfl⟩
  · exact ⟨.bufferSize, by rw [if_neg (by tauto), if_pos h], rfl⟩
  · refine ⟨.addressRange, ?_, rfl⟩
    rw [if_neg (by tauto), if_neg (by omega), if_pos]
    rcases h with h | h
    · exact .inl (decide_eq_false (by omega))
    · exact .inr (decide_eq_false (by omega))
  · refine ⟨.bufferOverlap, ?_, rfl⟩
    rw [if_neg (by tauto), if_neg (by omega), if_neg (by simp [inRange]; omega),
      if_pos ⟨rfl, decide_eq_true h6⟩]

/-- When each command succeeds, on this hardware's kind of parameters (R144). -/
theorem commandError_eq_none_iff (hP : P.aliasCheck = true) (i : Instr) (s : State) :
    commandError P i s = none ↔
      match i with
      | .encInit | .decInit => GoodIv P (initIvAddr s) (initIvLen s)
      | .blocksize => True
      | .transform => s.mode ≠ .none ∧ GoodBuffers P s
      | .encOnce | .decOnce => GoodIv P (onceIvAddr s) (onceIvLen s) ∧ GoodBuffers P s := by
  cases i
  · exact checkIv_eq_none_iff ..
  · exact checkIv_eq_none_iff ..
  · simp [commandError]
  · simp only [commandError, transformError]
    rw [← checkBuffers_eq_none_iff hP]
    split <;> simp_all
  all_goals
    simp only [commandError, onceError]
    rw [← checkBuffers_eq_none_iff hP, ← checkIv_eq_none_iff]
    simp [Option.or_eq_none_iff]

/-- Good buffers run the block loop (R105). -/
theorem runBuffers_good {s : State} (h : GoodBuffers P s) (m : Mode) (c p : Bytes) :
    runBuffers P m c p s = chainRun P m (dstAddr s) (srcAddr s) (srcLen s / P.blockSize)
      { c := c, p := p, mem := s.mem, free := s.free } := by
  have h6 := (partialOverlap_eq_false_iff ..).mpr h.apart
  simp only [runBuffers, h6]
  rfl

/-- A good src length is its block count times `B` (R101). -/
theorem GoodBuffers.blocks_mul {s : State} (h : GoodBuffers P s) :
    srcLen s / P.blockSize * P.blockSize = srcLen s :=
  Nat.div_mul_cancel (Nat.dvd_of_mod_eq_zero h.aligned)

/-- Good buffers hold at least one block (R101). -/
theorem GoodBuffers.blocks_pos {s : State} (h : GoodBuffers P s) : 1 ≤ srcLen s / P.blockSize := by
  have h1 := h.blocks_mul
  have h2 := h.positive
  rcases Nat.eq_zero_or_pos (srcLen s / P.blockSize) with h0 | h0
  · rw [h0] at h1; omega
  · exact h0

/-- The lengths, the memory form and the memory outside dst after the data part of a command, on either outcome
(R105, R109, R112). -/
theorem runBuffers_spec (hP : P.Lawful) {s : State} (m : Mode) {c p : Bytes} (hc : c.length = P.blockSize)
    (hp : p.length = P.blockSize) (hal : srcLen s % P.blockSize = 0) :
    (runBuffers P m c p s).c.length = P.blockSize ∧ (runBuffers P m c p s).p.length = P.blockSize ∧
      (∀ x, x < dstAddr s ∨ dstAddr s + srcLen s ≤ x → (runBuffers P m c p s).mem.read x = s.mem.read x) ∧
      (s.mem.wf → dstAddr s + srcLen s ≤ 2 ^ 64 → (runBuffers P m c p s).mem.wf) := by
  have hn : srcLen s / P.blockSize * P.blockSize = srcLen s :=
    Nat.div_mul_cancel (Nat.dvd_of_mod_eq_zero hal)
  unfold runBuffers
  dsimp only
  split
  · exact ⟨by simp [uncheckedRun], by simp [uncheckedRun],
      fun x hx => Memory.read_writeBytes_outside _ _ _ _ (by simpa using hx),
      fun hm hd => Memory.writeBytes_wf _ hm _ _ (by simpa using hd)⟩
  · have hl := chainRun_lengths hP m (dstAddr s) (srcAddr s) (srcLen s / P.blockSize)
      (l := { c := c, p := p, mem := s.mem, free := s.free }) hc hp
    exact ⟨hl.1, hl.2, fun x hx => chainRun_read_outside hP m _ _ _ hc hp x (by rw [hn]; exact hx),
      fun hm hd => chainRun_wf hP m _ _ _ hc hp hm (by rw [hn]; exact hd)⟩

/-- What the buffer checks let through, whatever ALIAS_CHECK is (R101 to R103). -/
theorem checkBuffers_passed {d dl a al : Nat} (h : checkBuffers P d dl a al = none) :
    al ≠ 0 ∧ al % P.blockSize = 0 ∧ al ≤ dl ∧ a + al ≤ 2 ^ 64 ∧ d + dl ≤ 2 ^ 64 := by
  unfold checkBuffers at h
  split at h
  · simp at h
  · next h1 =>
    split at h
    · simp at h
    · next h2 =>
      split at h
      · simp at h
      · next h3 =>
        simp only [inRange, decide_eq_false_iff_not] at h3
        exact ⟨by tauto, by tauto, by omega, by omega, by omega⟩

/-- The buffers of a storing command that succeeds passed the buffer checks (R144). -/
theorem buffers_passed {i : Instr} {s : State} (h : commandError P i s = none)
    (hi : i = .transform ∨ i = .encOnce ∨ i = .decOnce) :
    checkBuffers P (dstAddr s) (dstLen s) (srcAddr s) (srcLen s) = none := by
  rcases hi with rfl | rfl | rfl
  · simp only [commandError, transformError] at h
    split at h
    · simp at h
    · exact h
  all_goals
    simp only [commandError, onceError, Option.or_eq_none_iff] at h
    exact h.2

/-- A command changes no byte of memory outside `[dst, dst + srcL)`, and none at all if it stores nothing (R41,
R109). -/
theorem command_read_outside (hP : P.Lawful) (i : Instr) {s : State} (hc : s.prevC.length = P.blockSize)
    (hp : s.prevP.length = P.blockSize) (x : Nat)
    (hx : (i = .transform ∨ i = .encOnce ∨ i = .decOnce) → x < dstAddr s ∨ dstAddr s + srcLen s ≤ x) :
    (commandWith P i s).mem.read x = s.mem.read x := by
  rcases command_cases (P := P) i s with ⟨e, -, h⟩ | ⟨hn, h⟩ <;> rw [h]
  · rfl
  · have hb := fun hi => (checkBuffers_passed (buffers_passed hn hi)).2.1
    cases i with
    | encInit => rfl
    | decInit => rfl
    | blocksize => rfl
    | transform => exact (runBuffers_spec hP _ hc hp (hb (by simp))).2.2.1 x (hx (by simp))
    | encOnce =>
      exact (runBuffers_spec hP _ (by simp) (by simp) (hb (by simp))).2.2.1 x (hx (by simp))
    | decOnce =>
      exact (runBuffers_spec hP _ (by simp) (by simp) (hb (by simp))).2.2.1 x (hx (by simp))

/-- A command keeps the canonical form of memory (R40, R45). -/
theorem command_wf (hP : P.Lawful) (i : Instr) {s : State} (hc : s.prevC.length = P.blockSize)
    (hp : s.prevP.length = P.blockSize) (hm : s.mem.wf) : (commandWith P i s).mem.wf := by
  rcases command_cases (P := P) i s with ⟨e, -, h⟩ | ⟨hn, h⟩ <;> rw [h]
  · exact hm
  · have hb := fun hi => checkBuffers_passed (buffers_passed hn hi)
    cases i with
    | encInit => exact hm
    | decInit => exact hm
    | blocksize => exact hm
    | transform =>
      have := hb (by simp)
      exact (runBuffers_spec hP _ hc hp this.2.1).2.2.2 hm (by omega)
    | encOnce =>
      have := hb (by simp)
      exact (runBuffers_spec hP _ (by simp) (by simp) this.2.1).2.2.2 hm (by omega)
    | decOnce =>
      have := hb (by simp)
      exact (runBuffers_spec hP _ (by simp) (by simp) this.2.1).2.2.2 hm (by omega)

/-- The accumulators stay blocks (R21). -/
theorem command_prev_lengths (hP : P.Lawful) (i : Instr) {s : State} (hc : s.prevC.length = P.blockSize)
    (hp : s.prevP.length = P.blockSize) :
    (commandWith P i s).prevC.length = P.blockSize ∧ (commandWith P i s).prevP.length = P.blockSize := by
  rcases command_cases (P := P) i s with ⟨e, -, h⟩ | ⟨hn, h⟩ <;> rw [h]
  · exact ⟨hc, hp⟩
  · cases i with
    | encInit =>
      exact ⟨(congrArg List.length (slice_readBytes_first ..)).trans (by simp),
        (congrArg List.length (slice_readBytes_second ..)).trans (by simp)⟩
    | decInit =>
      exact ⟨(congrArg List.length (slice_readBytes_first ..)).trans (by simp),
        (congrArg List.length (slice_readBytes_second ..)).trans (by simp)⟩
    | blocksize => exact ⟨hc, hp⟩
    | transform =>
      have := runBuffers_spec hP s.mode hc hp (checkBuffers_passed (buffers_passed hn (by simp))).2.1
      exact ⟨this.1, this.2.1⟩
    | encOnce => exact ⟨hc, hp⟩
    | decOnce => exact ⟨hc, hp⟩

/-- What `exec` answers is the command over this hardware's parameters, and its code is OK only without an error. -/
theorem exec_next {i : Instr} {s t : State} (h : exec i s = .next t) :
    t = commandWith Config.params i s ∧ (codeField t.status = 0 → commandError Config.params i s = none) := by
  rw [exec_eq] at h
  cases h
  exact ⟨rfl, (command_ok_iff ..).mp⟩

/-- A TRANSFORM that succeeds had a chain and good buffers (R111, R101 to R104). -/
theorem transform_next {s t : State} (h : exec .transform s = .next t) (hk : codeField t.status = 0) :
    t = commandWith Config.params .transform s ∧ s.mode ≠ .none ∧ GoodBuffers Config.params s :=
  ⟨(exec_next h).1, (commandError_eq_none_iff (P := Config.params) rfl .transform s).mp ((exec_next h).2 hk)⟩

/-- The written dst range stays inside the address space (R103). -/
theorem GoodBuffers.dst_fits {s : State} (h : GoodBuffers P s) :
    dstAddr s + srcLen s / P.blockSize * P.blockSize ≤ 2 ^ 64 := by
  have := h.blocks_mul
  have := h.size
  have := h.dstRange
  omega

/-- Good buffers are identical or apart, counted in blocks (R104). -/
theorem GoodBuffers.apart_blocks {s : State} (h : GoodBuffers P s) :
    dstAddr s = srcAddr s ∨ dstAddr s + srcLen s / P.blockSize * P.blockSize ≤ srcAddr s ∨
      srcAddr s + srcLen s / P.blockSize * P.blockSize ≤ dstAddr s := by
  rw [h.blocks_mul]
  exact h.apart

/-- Where the block loop of a TRANSFORM starts (R100). -/
abbrev transformLoop (s : State) : Loop := { c := s.prevC, p := s.prevP, mem := s.mem, free := s.free }

/-- Where the block loop of a one-shot command starts: the IV halves (R130). -/
abbrev onceLoop (P : Params) (s : State) : Loop where
  c := s.mem.readBytes (onceIvAddr s) P.blockSize
  p := s.mem.readBytes (onceIvAddr s + P.blockSize) P.blockSize
  mem := s.mem
  free := s.free

/-- A TRANSFORM of a constructed chain over good buffers, field by field (R100, R109). -/
theorem transform_good (hP : P.aliasCheck = true) {s : State} (hm : s.mode ≠ .none) (hb : GoodBuffers P s) :
    commandWith P .transform s =
      let r := chainRun P s.mode (dstAddr s) (srcAddr s) (srcLen s / P.blockSize) (transformLoop s)
      { s with
        mem := r.mem
        prevC := r.c
        prevP := r.p
        blocks := s.blocks + BitVec.ofNat 64 (srcLen s / P.blockSize)
        status := okStatus s.status } := by
  rw [command_success ((commandError_eq_none_iff hP .transform s).mpr ⟨hm, hb⟩), succeed_eq]
  simp only [commandEffect, transformEffect, transformDone, runBuffers_good hb, chainRun_free]
  rfl

/-- A one-shot command over a good IV and good buffers, field by field (R130, R131, R132). -/
theorem once_good (hP : P.aliasCheck = true) {s : State} {i : Instr} {m : Mode}
    (hi : (i = .encOnce ∧ m = .enc) ∨ (i = .decOnce ∧ m = .dec)) (hv : GoodIv P (onceIvAddr s) (onceIvLen s))
    (hb : GoodBuffers P s) :
    commandWith P i s = { s with
      mem := (chainRun P m (dstAddr s) (srcAddr s) (srcLen s / P.blockSize) (onceLoop P s)).mem
      status := okStatus s.status } := by
  have hn : commandError P i s = none := by
    rcases hi with ⟨rfl, -⟩ | ⟨rfl, -⟩ <;> exact (commandError_eq_none_iff hP _ s).mpr ⟨hv, hb⟩
  rw [command_success hn, succeed_eq]
  rcases hi with ⟨rfl, rfl⟩ | ⟨rfl, rfl⟩ <;>
    simp only [commandEffect, onceEffect, onceDone, runBuffers_good hb, chainRun_free, slice_readBytes_first,
      slice_readBytes_second] <;> rfl

/-- With the alias check on, no command draws a free value or reads their count (R112). -/
theorem command_setFree (hP : P.aliasCheck = true) (i : Instr) (s : State) (k : Nat) :
    commandWith P i (s.setFree k) = (commandWith P i s).setFree k := by
  have he : commandError P i (s.setFree k) = commandError P i s := by cases i <;> rfl
  cases h : commandError P i s with
  | some e => rw [command_error (he.trans h), command_error h]; rfl
  | none =>
    have once : ∀ (j : Instr) (m : Mode), (j = .encOnce ∧ m = .enc) ∨ (j = .decOnce ∧ m = .dec) →
        GoodIv P (onceIvAddr s) (onceIvLen s) → GoodBuffers P s →
        commandWith P j (s.setFree k) = (commandWith P j s).setFree k := by
      intro j m hj hv hb
      have hb' : GoodBuffers P (s.setFree k) := ⟨hb.1, hb.2, hb.3, hb.4, hb.5, hb.6⟩
      rw [once_good hP hj (s := s) hv hb, once_good hP hj (s := s.setFree k) hv hb']
      have e := congrArg (fun r : Loop => ({ s with mem := r.mem, status := okStatus s.status, free := k } : State))
        (chainRun_setFree (P := P) m (dstAddr s) (srcAddr s) (srcLen s / P.blockSize) (onceLoop P s) k)
      exact e
    have hk := (commandError_eq_none_iff hP i s).mp h
    cases i
    case transform =>
      obtain ⟨hm, hb⟩ := hk
      have hb' : GoodBuffers P (s.setFree k) := ⟨hb.1, hb.2, hb.3, hb.4, hb.5, hb.6⟩
      rw [transform_good hP (s := s) hm hb, transform_good hP (s := s.setFree k) hm hb']
      have e := congrArg (fun r : Loop => ({ s with
          mem := r.mem
          prevC := r.c
          prevP := r.p
          blocks := s.blocks + BitVec.ofNat 64 (srcLen s / P.blockSize)
          status := okStatus s.status
          free := k } : State))
        (chainRun_setFree (P := P) s.mode (dstAddr s) (srcAddr s) (srcLen s / P.blockSize) (transformLoop s) k)
      exact e
    case encOnce => exact once .encOnce .enc (.inl ⟨rfl, rfl⟩) hk.1 hk.2
    case decOnce => exact once .decOnce .dec (.inr ⟨rfl, rfl⟩) hk.1 hk.2
    all_goals rw [command_success (he.trans h), command_success h]; rfl

/-- The error of a command reads the operand registers and MODE only (R145). -/
theorem commandError_congr {i : Instr} {s u : State} (hm : s.mode = u.mode) (h0 : s.op0 = u.op0) (h1 : s.op1 = u.op1)
    (h2 : s.op2 = u.op2) (h3 : s.op3 = u.op3) (h4 : s.op4 = u.op4) (h5 : s.op5 = u.op5) :
    commandError P i s = commandError P i u := by
  cases i <;> simp only [commandError, initError, transformError, onceError, initIvAddr, initIvLen, onceIvAddr,
    onceIvLen, dstAddr, dstLen, srcAddr, srcLen, hm, h0, h1, h2, h3, h4, h5]

/-- The IV checks as a code (R80, R81). -/
theorem checkIv_code (a l : Nat) : (((checkIv P a l).map errorCode).getD 0).toNat = firstIvCode P a l := by
  unfold checkIv firstIvCode inRange
  simp only [decide_eq_false_iff_not, Nat.not_le]
  split
  · rfl
  · split <;> rfl

/-- The buffer checks as a code, with the alias check on (R101 to R104). -/
theorem checkBuffers_code (hP : P.aliasCheck = true) (s : State) :
    (((checkBuffers P (dstAddr s) (dstLen s) (srcAddr s) (srcLen s)).map errorCode).getD 0).toNat =
      firstBufferCode P s := by
  unfold checkBuffers firstBufferCode
  split
  · rfl
  · split
    · rfl
    · simp only [inRange, decide_eq_false_iff_not, Nat.not_le, hP, true_and, partialOverlap, decide_eq_true_eq]
      split
      · rfl
      · split <;> rfl

/-- Taking an error keeps the invariant (R143). -/
theorem raise_inv {s : State} (h : s.Inv P) (e : ErrorCode) : (raise e s).Inv P :=
  ⟨⟨h.engine.prevC_length, h.engine.prevP_length, by simpa using h.engine.status_reserved,
    by simpa using errorCode_le e, by simp, h.engine.result_legal, h.engine.none_idle⟩, h.mem_wf⟩

/-- A command keeps the invariant. -/
theorem command_inv (hP : P.Lawful) (i : Instr) {s : State} (h : s.Inv P) : (commandWith P i s).Inv P := by
  have hl := command_prev_lengths hP i h.engine.prevC_length h.engine.prevP_length
  have hw := command_wf hP i h.engine.prevC_length h.engine.prevP_length h.mem_wf
  rcases command_cases (P := P) i s with ⟨e, -, h'⟩ | ⟨hn, h'⟩
  · rw [h']
    exact raise_inv h e
  · rw [h'] at hl hw ⊢
    refine ⟨⟨hl.1, hl.2, by simpa using h.engine.status_reserved, by simp, by simp, ?_, ?_⟩, hw⟩
    · cases i
      case blocksize => exact .inr rfl
      all_goals exact h.engine.result_legal
    · cases i
      case transform =>
        intro hm
        change s.mode = .none at hm
        simp [commandError, transformError, hm] at hn
      case encInit => exact fun hm => absurd hm (by decide : Mode.enc ≠ .none)
      case decInit => exact fun hm => absurd hm (by decide : Mode.dec ≠ .none)
      all_goals exact h.engine.none_idle

/-- A command never clears ANY_ERROR (R146). -/
theorem command_anyError (i : Instr) (s : State) (h : anyErrorField s.status = true) :
    anyErrorField (commandWith P i s).status = true := by
  rcases command_cases (P := P) i s with ⟨e, -, h'⟩ | ⟨-, h'⟩ <;> rw [h'] <;> simp [h]

/-- A command that changes MODE is a successful construction (R22). -/
theorem command_mode (i : Instr) (s : State) (h : (commandWith P i s).mode ≠ s.mode) :
    codeField (commandWith P i s).status = 0 ∧
      ((i = .encInit ∧ (commandWith P i s).mode = .enc) ∨ (i = .decInit ∧ (commandWith P i s).mode = .dec)) := by
  rcases command_cases (P := P) i s with ⟨e, -, h'⟩ | ⟨hn, h'⟩ <;> rw [h'] at h ⊢
  · exact absurd rfl h
  · refine ⟨by simp, ?_⟩
    cases i
    case encInit => exact .inl ⟨rfl, rfl⟩
    case decInit => exact .inr ⟨rfl, rfl⟩
    all_goals exact absurd rfl h

end Sys2Proof.Machine
end

