-- ==== Sys2Proof/Laws/HostPort.lean ====
section
/-! SUPPORT. What a step can do, said once; the ranges a raced command touches; power-on reset. -/

namespace Sys2Proof.Machine

variable {P : Params}

/-- With no access waiting the engine is idle (R155, R170). -/
theorem step_idle {s : State} (h : s.bus = []) : step s = .next s := by
  simp [step, hostStep, h]

/-- A step performs the next access on the state behind it (R24, R52). -/
theorem step_access {s : State} {a : Access} {rest : List Access} (h : s.bus = a :: rest) :
    step s = perform Config.params exec a (s.setBus rest) := by
  simp [step, hostStep, h]

/-- The CMD register stands at offset 0 (R31). -/
theorem regAt_eq_cmd_iff (offset : Nat) : regAt offset = some .cmd ↔ offset = regOffset .cmd := by
  constructor
  · intro h
    unfold regAt at h
    split at h <;> simp_all [regOffset]
  · rintro rfl; rfl

/-- Every register stands at its own offset (R31). -/
theorem regAt_regOffset (r : Reg) : regAt (regOffset r) = some r := by cases r <;> rfl

/-- A CMD write runs its word (R25). -/
theorem perform_cmd (run : Instr → State → Host.Outcome State Fault Refusal) (w : Word) (s : State) :
    perform P run (.regWrite (regOffset .cmd) 64 w) s = runWord run w s := rfl

theorem runWord_ok {run : Instr → State → Host.Outcome State Fault Refusal} {w : Word} {i : Instr}
    (h : decode w = .ok i) (s : State) : runWord run w s = run i s := by
  simp [runWord, h]

theorem runWord_error {run : Instr → State → Host.Outcome State Fault Refusal} {w : Word} {r : Reject}
    (h : decode w = .error r) (s : State) : runWord run w s = .next (raise .illegalCommand s) := by
  simp [runWord, h]

/-- The state a raced command runs on: every raced byte it reads has any value (log 11). -/
abbrev racedStart (s : State) (reads : List Nat) : State :=
  (s.setMem (scramble s.mem s.free reads)).setFree (s.free + 1)

/-- A raced command over this hardware's parameters answers a next state: the command itself where nothing overlaps,
else the command on its scrambled reads with the overlap opened afterwards (R53). -/
theorem racedRun_exec (f : Foreign) (i : Instr) (s : State) :
    racedRun Config.params exec f i s =
      .next (if racedReads (footprint Config.params i s) f ++ racedWrites (footprint Config.params i s) f = [] then
          commandWith Config.params i s
        else
          afterRace Config.params i (racedReads (footprint Config.params i s) f)
            (racedWrites (footprint Config.params i s) f)
            (racedCommandWith Config.params i (racedReads (footprint Config.params i s) f)
              (racedStart s (racedReads (footprint Config.params i s) f)))) := by
  unfold racedRun
  dsimp only
  split <;> simp only [exec_eq]

/-- What a raced command does when no error applies. -/
def racedEffect (P : Params) (i : Instr) (raced : List Nat) (s : State) : State :=
  match i with
  | .encInit => construct P .enc s
  | .decInit => construct P .dec s
  | .blocksize => s.setResult (BitVec.ofNat 64 P.blockSize)
  | .transform => racedTransform P raced s
  | .encOnce => racedOnce P .enc raced s
  | .decOnce => racedOnce P .dec raced s

theorem racedCommandWith_eq (i : Instr) (raced : List Nat) (s : State) :
    racedCommandWith P i raced s = guarded (commandError P i s) (racedEffect P i raced s) s := by
  cases i <;> rfl

/-- A race adds no error and takes none away (R145). -/
theorem racedCommandWith_error {i : Instr} {s : State} {e : ErrorCode} (h : commandError P i s = some e)
    (raced : List Nat) : racedCommandWith P i raced s = raise e s := by
  rw [racedCommandWith_eq, h]; rfl

theorem racedCommandWith_success {i : Instr} {s : State} (h : commandError P i s = none) (raced : List Nat) :
    racedCommandWith P i raced s = succeed (racedEffect P i raced s) := by
  rw [racedCommandWith_eq, h]; rfl

/-- Raced data parts without a raced read are the data parts (R53, R105). -/
theorem racedBuffers_nil (m : Mode) (c p : Bytes) (s : State) :
    racedBuffers P m [] s { c := c, p := p, mem := s.mem, free := s.free } = runBuffers P m c p s := by
  simp only [racedBuffers, runBuffers, racedChainRun_untouched (P := P) m [] _ _ _ _ fun _ _ => rfl]

/-- A command that reads no raced byte runs as it does alone (R53). -/
@[simp] theorem racedCommandWith_nil (i : Instr) (s : State) : racedCommandWith P i [] s = commandWith P i s := by
  rw [racedCommandWith_eq, commandWith_eq]
  congr 1
  cases i
  case transform => exact congrArg (transformDone P s) (racedBuffers_nil ..)
  case encOnce => exact congrArg (onceDone s) (racedBuffers_nil ..)
  case decOnce => exact congrArg (onceDone s) (racedBuffers_nil ..)
  all_goals rfl

/-- A race on a command's reads shows in memory, the accumulators and the count of free values alone (R53). -/
theorem racedCommandWith_frame (i : Instr) (raced : List Nat) (s : State) :
    racedCommandWith P i raced s = { commandWith P i s with
      mem := (racedCommandWith P i raced s).mem
      prevC := (racedCommandWith P i raced s).prevC
      prevP := (racedCommandWith P i raced s).prevP
      free := (racedCommandWith P i raced s).free } := by
  cases h : commandError P i s with
  | some e => rw [racedCommandWith_error h, command_error h]
  | none =>
    rw [racedCommandWith_success h, command_success h]
    cases i <;> rfl

/-- The data part of a raced command: the lengths, the memory outside dst and the memory form (R105, R109, R112). -/
theorem racedBuffers_spec (hP : P.Lawful) {s : State} (m : Mode) (raced : List Nat) {l : Loop}
    (hc : l.c.length = P.blockSize) (hp : l.p.length = P.blockSize) (hal : srcLen s % P.blockSize = 0) :
    (racedBuffers P m raced s l).c.length = P.blockSize ∧ (racedBuffers P m raced s l).p.length = P.blockSize ∧
      (∀ x, x < dstAddr s ∨ dstAddr s + srcLen s ≤ x → (racedBuffers P m raced s l).mem.read x = l.mem.read x) ∧
      (l.mem.wf → dstAddr s + srcLen s ≤ 2 ^ 64 → (racedBuffers P m raced s l).mem.wf) := by
  have hn : srcLen s / P.blockSize * P.blockSize = srcLen s :=
    Nat.div_mul_cancel (Nat.dvd_of_mod_eq_zero hal)
  unfold racedBuffers
  split
  · exact ⟨by simp [uncheckedRun], by simp [uncheckedRun],
      fun x hx => Memory.read_writeBytes_outside _ _ _ _ (by simpa using hx),
      fun hm hd => Memory.writeBytes_wf _ hm _ _ (by simpa using hd)⟩
  · have h := racedChainRun_spec hP m raced (dstAddr s) (srcAddr s) (srcLen s / P.blockSize) hc hp
    rw [hn] at h
    exact h

/-- The memory and the accumulators a raced command leaves: memory outside dst as before and in canonical form, the
accumulators still blocks (R21, R40, R41). -/
theorem racedCommandWith_spec (hP : P.Lawful) (i : Instr) (raced : List Nat) {s : State}
    (hc : s.prevC.length = P.blockSize) (hp : s.prevP.length = P.blockSize) :
    (racedCommandWith P i raced s).prevC.length = P.blockSize ∧
      (racedCommandWith P i raced s).prevP.length = P.blockSize ∧
      (∀ x, ((i = .transform ∨ i = .encOnce ∨ i = .decOnce) → x < dstAddr s ∨ dstAddr s + srcLen s ≤ x) →
        (racedCommandWith P i raced s).mem.read x = s.mem.read x) ∧
      (s.mem.wf → (racedCommandWith P i raced s).mem.wf) := by
  cases h : commandError P i s with
  | some e => rw [racedCommandWith_error h]; exact ⟨hc, hp, fun _ _ => rfl, id⟩
  | none =>
    have hb := fun hi => checkBuffers_passed (buffers_passed h hi)
    have hl := command_prev_lengths hP i hc hp
    have once : ∀ m : Mode, srcLen s % P.blockSize = 0 →
        (∀ x, x < dstAddr s ∨ dstAddr s + srcLen s ≤ x → (racedOnce P m raced s).mem.read x = s.mem.read x) ∧
          (s.mem.wf → dstAddr s + srcLen s ≤ 2 ^ 64 → (racedOnce P m raced s).mem.wf) := by
      intro m hal
      unfold racedOnce
      dsimp only
      split
      · exact (racedBuffers_spec hP m raced (by simp [openChain]) (by simp [openChain]) hal).2.2
      · exact (racedBuffers_spec hP m raced (by simp) (by simp) hal).2.2
    rw [racedCommandWith_success h]
    rw [command_success h] at hl
    cases i with
    | encInit => exact ⟨hl.1, hl.2, fun _ _ => rfl, id⟩
    | decInit => exact ⟨hl.1, hl.2, fun _ _ => rfl, id⟩
    | blocksize => exact ⟨hl.1, hl.2, fun _ _ => rfl, id⟩
    | transform =>
      have hb := hb (by simp)
      have hr := racedBuffers_spec hP s.mode raced (s := s)
        (l := { c := s.prevC, p := s.prevP, mem := s.mem, free := s.free }) hc hp hb.2.1
      exact ⟨hr.1, hr.2.1, fun x hx => hr.2.2.1 x (hx (by simp)), fun hm => hr.2.2.2 hm (by omega)⟩
    | encOnce =>
      have hb := hb (by simp)
      exact ⟨hl.1, hl.2, fun x hx => (once .enc hb.2.1).1 x (hx (by simp)), fun hm => (once .enc hb.2.1).2 hm (by omega)⟩
    | decOnce =>
      have hb := hb (by simp)
      exact ⟨hl.1, hl.2, fun x hx => (once .dec hb.2.1).1 x (hx (by simp)), fun hm => (once .dec hb.2.1).2 hm (by omega)⟩

/-- A raced command keeps the invariant. -/
theorem racedCommandWith_inv (hP : P.Lawful) (i : Instr) (raced : List Nat) {s : State} (h : s.Inv P) :
    (racedCommandWith P i raced s).Inv P := by
  obtain ⟨hc, hp, -, hw⟩ := racedCommandWith_spec hP i raced h.engine.prevC_length h.engine.prevP_length
  have he := (command_inv hP i h).engine
  rw [racedCommandWith_frame]
  exact ⟨⟨hc, hp, he.status_reserved, he.code_legal, he.error_sticky, he.result_legal, he.none_idle⟩, hw h.mem_wf⟩

/-- Everything one access can lead to (R24, R25, R32, R40, R53, R170). -/
theorem perform_cases {a : Access} {s t : State} (h : perform Config.params exec a s = .next t) :
    (∃ i, t = commandWith Config.params i s) ∨ t = raise .illegalCommand s ∨ (∃ r w, t = writeReg s r w) ∨ t = s ∨
      (∃ x, t = s.answer x) ∨ (∃ x v, a = .memWrite x v ∧ x + v.length ≤ 2 ^ 64 ∧ t = s.setMem (s.mem.writeBytes x v)) ∨
      (∃ i f, .next t = racedRun Config.params exec f i s) ∨ (a = .powerOn ∧ t = powerOn Config.params s) := by
  cases a with
  | regWrite offset width w =>
    simp only [perform, writeAccess] at h
    split at h
    · split at h
      · unfold runWord at h
        split at h
        · rw [exec_eq] at h; cases h; exact .inl ⟨_, rfl⟩
        · cases h; exact .inr (.inl rfl)
      · cases h; exact .inr (.inr (.inl ⟨_, _, rfl⟩))
      · cases h; exact .inr (.inr (.inr (.inl rfl)))
    · cases h
  | regRead offset width =>
    simp only [perform, readAccess] at h
    split at h
    · cases h; exact .inr (.inr (.inr (.inr (.inl ⟨_, rfl⟩))))
    · cases h
  | memWrite x v =>
    simp only [perform, writeMemory, inRange, decide_eq_true_eq] at h
    split at h
    · cases h; exact .inr (.inr (.inr (.inr (.inr (.inl ⟨x, v, rfl, ‹_›, rfl⟩)))))
    · cases h
  | memRead x n =>
    simp only [perform, readMemory] at h
    split at h
    · cases h; exact .inr (.inr (.inr (.inr (.inl ⟨_, rfl⟩))))
    · cases h
  | racedCommand w f =>
    simp only [perform, runWord] at h
    split at h
    · exact .inr (.inr (.inr (.inr (.inr (.inr (.inl ⟨_, f, h.symm⟩))))))
    · cases h; exact .inr (.inl rfl)
  | powerOn =>
    cases h
    exact .inr (.inr (.inr (.inr (.inr (.inr (.inr ⟨rfl, rfl⟩))))))

@[simp] theorem writeReg_mem (s : State) (r : Reg) (w : Word) : (writeReg s r w).mem = s.mem := by cases r <;> rfl
@[simp] theorem writeReg_status (s : State) (r : Reg) (w : Word) : (writeReg s r w).status = s.status := by
  cases r <;> rfl
@[simp] theorem writeReg_result (s : State) (r : Reg) (w : Word) : (writeReg s r w).result = s.result := by
  cases r <;> rfl
@[simp] theorem writeReg_mode (s : State) (r : Reg) (w : Word) : (writeReg s r w).mode = s.mode := by cases r <;> rfl
@[simp] theorem writeReg_blocks (s : State) (r : Reg) (w : Word) : (writeReg s r w).blocks = s.blocks := by
  cases r <;> rfl
@[simp] theorem writeReg_prevC (s : State) (r : Reg) (w : Word) : (writeReg s r w).prevC = s.prevC := by
  cases r <;> rfl
@[simp] theorem writeReg_prevP (s : State) (r : Reg) (w : Word) : (writeReg s r w).prevP = s.prevP := by
  cases r <;> rfl
@[simp] theorem writeReg_free (s : State) (r : Reg) (w : Word) : (writeReg s r w).free = s.free := by cases r <;> rfl
@[simp] theorem writeReg_bus (s : State) (r : Reg) (w : Word) : (writeReg s r w).bus = s.bus := by cases r <;> rfl
@[simp] theorem writeReg_answers (s : State) (r : Reg) (w : Word) : (writeReg s r w).answers = s.answers := by
  cases r <;> rfl

/-- An address a range holds (R45). -/
theorem Range.has_iff (r : Range) (a : Nat) : r.has a = true ↔ r.start ≤ a ∧ a < r.start + r.len := by
  simp [Range.has]

theorem Range.mem_addrs (r : Range) (a : Nat) : a ∈ r.addrs ↔ r.start ≤ a ∧ a < r.start + r.len := by
  simp only [Range.addrs, List.mem_map, List.mem_range]
  constructor
  · rintro ⟨k, hk, rfl⟩; omega
  · intro h; exact ⟨a - r.start, by omega, by omega⟩

theorem covers_iff (rs : List Range) (a : Nat) : covers rs a = true ↔ ∃ r ∈ rs, r.start ≤ a ∧ a < r.start + r.len := by
  simp [covers, Range.has]

/-- The overlap of a race (R53). -/
theorem overlaps_iff (fp f : Foreign) (a : Nat) :
    overlaps fp f a = true ↔
      (covers fp.writes a = true ∧ (covers f.reads a = true ∨ covers f.writes a = true)) ∨
        (covers fp.reads a = true ∧ covers f.writes a = true) := by
  simp [overlaps]

theorem mem_racedReads (fp f : Foreign) (a : Nat) :
    a ∈ racedReads fp f ↔ covers fp.reads a = true ∧ overlaps fp f a = true := by
  simp [racedReads, covers_iff, Range.mem_addrs]

theorem mem_racedWrites (fp f : Foreign) (a : Nat) :
    a ∈ racedWrites fp f ↔ covers fp.writes a = true ∧ overlaps fp f a = true := by
  simp [racedWrites, covers_iff, Range.mem_addrs]

/-- Scrambling leaves every other byte alone (R53). -/
theorem scramble_read_outside (m : Memory) (k : Nat) (addrs : List Nat) (x : Nat) (hx : x ∉ addrs) :
    (scramble m k addrs).read x = m.read x := by
  induction addrs generalizing m with
  | nil => rfl
  | cons a rest ih =>
    obtain ⟨h1, h2⟩ := not_or.mp (mt List.mem_cons.mpr hx)
    exact (ih (m.write a (Config.freeByte k a)) h2).trans (Memory.read_write_other m a x _ h1)

theorem scramble_wf (m : Memory) (hm : m.wf) (k : Nat) (addrs : List Nat) (h : ∀ a ∈ addrs, a < 2 ^ 64) :
    (scramble m k addrs).wf := by
  induction addrs generalizing m with
  | nil => exact hm
  | cons a rest ih =>
    exact ih _ (Memory.write_wf m hm a (h a (by simp)) _) fun b hb => h b (by simp [hb])

/-- The buffer lengths and ranges a command's success rests on (R45). -/
theorem ranges_passed {i : Instr} {s : State} (h : commandError P i s = none) :
    ((i = .encInit ∨ i = .decInit) → initIvAddr s + 2 * P.blockSize ≤ 2 ^ 64) ∧
      ((i = .encOnce ∨ i = .decOnce) → onceIvAddr s + 2 * P.blockSize ≤ 2 ^ 64) ∧
      ((i = .transform ∨ i = .encOnce ∨ i = .decOnce) →
        srcAddr s + srcLen s ≤ 2 ^ 64 ∧ dstAddr s + srcLen s ≤ 2 ^ 64) := by
  refine ⟨?_, ?_, fun hi => ?_⟩
  · rintro (rfl | rfl) <;> exact ((checkIv_eq_none_iff ..).mp h).range
  · rintro (rfl | rfl) <;>
      exact ((checkIv_eq_none_iff ..).mp (Option.or_eq_none_iff.mp h).1).range
  · have := checkBuffers_passed (buffers_passed h hi)
    omega

/-- A command reaches only addresses below `2^64` (R45). -/
theorem footprint_below (i : Instr) (s : State) (a : Nat)
    (h : covers (footprint P i s).reads a = true ∨ covers (footprint P i s).writes a = true) : a < 2 ^ 64 := by
  unfold footprint at h
  split at h
  · simp [covers] at h
  · next hs =>
    have hr := ranges_passed (P := P) (i := i) (s := s) (by simpa using hs)
    cases i <;> simp [covers_iff] at h hr <;> omega

/-- The power-on state is one reset leaves: State.reset is power-on of a machine with empty memory (R34, R170). -/
theorem powerOn_reset (s : State) (hm : s.mem = []) (hf : s.free = 0) (hb : s.bus = []) (ha : s.answers = []) :
    powerOn Config.params s = State.reset := by
  simp [powerOn, State.reset, hm, hf, hb, ha]

/-- The error of a command does not read memory or the count of free values (R145). -/
theorem commandError_setMem (i : Instr) (s : State) (m : Memory) (k : Nat) :
    commandError P i ((s.setMem m).setFree k) = commandError P i s := by
  cases i <;> rfl

/-- A failed command has an empty footprint (R41). -/
theorem footprint_error {i : Instr} {s : State} {e : ErrorCode} (h : commandError P i s = some e) :
    footprint P i s = { reads := [], writes := [] } := by
  simp [footprint, h]

theorem racedReads_below (i : Instr) (s : State) (f : Foreign) (a : Nat)
    (ha : a ∈ racedReads (footprint P i s) f) : a < 2 ^ 64 :=
  footprint_below i s a (.inl ((mem_racedReads ..).mp ha).1)

theorem racedWrites_below (i : Instr) (s : State) (f : Foreign) (a : Nat)
    (ha : a ∈ racedWrites (footprint P i s) f) : a < 2 ^ 64 :=
  footprint_below i s a (.inr ((mem_racedWrites ..).mp ha).1)

/-- What the opening of a race leaves alone: everything but memory, the accumulators and the count of free values
(R53). -/
theorem afterRace_frame (i : Instr) (reads writes : List Nat) (t : State) :
    afterRace P i reads writes t = { t with
      mem := scramble t.mem t.free (reads ++ writes)
      prevC := (afterRace P i reads writes t).prevC
      prevP := (afterRace P i reads writes t).prevP
      free := (afterRace P i reads writes t).free } := by
  unfold afterRace
  dsimp only
  split <;> rfl

@[simp] theorem afterRace_status (i : Instr) (reads writes : List Nat) (t : State) :
    (afterRace P i reads writes t).status = t.status := by rw [afterRace_frame]
@[simp] theorem afterRace_mode (i : Instr) (reads writes : List Nat) (t : State) :
    (afterRace P i reads writes t).mode = t.mode := by rw [afterRace_frame]
@[simp] theorem afterRace_blocks (i : Instr) (reads writes : List Nat) (t : State) :
    (afterRace P i reads writes t).blocks = t.blocks := by rw [afterRace_frame]
@[simp] theorem afterRace_bus (i : Instr) (reads writes : List Nat) (t : State) :
    (afterRace P i reads writes t).bus = t.bus := by rw [afterRace_frame]

/-- The opening of a race inside the address space keeps the invariant. -/
theorem afterRace_inv (i : Instr) (reads writes : List Nat) {t : State} (h : t.Inv P)
    (hb : ∀ a ∈ reads ++ writes, a < 2 ^ 64) : (afterRace P i reads writes t).Inv P := by
  have hw := scramble_wf t.mem h.mem_wf t.free (reads ++ writes) hb
  unfold afterRace
  dsimp only
  split
  · exact ⟨⟨by simp, by simp, h.engine.status_reserved, h.engine.code_legal, h.engine.error_sticky,
      h.engine.result_legal, h.engine.none_idle⟩, hw⟩
  · exact ⟨h.engine, hw⟩

/-- Power-on reset gives a good engine (R34). -/
theorem powerOn_inv (s : State) (hm : s.mem.wf) : (powerOn P s).Inv P :=
  ⟨⟨by simp [powerOn, Engine.reset], by simp [powerOn, Engine.reset], (by decide : reservedStatus 0 = 0),
    (by decide : codeField 0 ≤ 7), (by decide : codeField 0 ≠ 0 → anyErrorField 0 = true), .inl rfl, fun _ => rfl⟩, hm⟩

/-- A step takes one access from the queue (R52; log 6). -/
theorem step_bus {s t : State} (h : step s = .next t) : t.bus = s.bus.tail := by
  obtain hb | ⟨a, rest, hb⟩ : s.bus = [] ∨ ∃ a rest, s.bus = a :: rest := by cases s.bus <;> simp
  · rw [step_idle hb] at h
    cases h
    rw [hb]; rfl
  · rw [step_access hb] at h
    rw [hb, List.tail_cons]
    rcases perform_cases h with ⟨i, rfl⟩ | rfl | ⟨r, w, rfl⟩ | rfl | ⟨x, rfl⟩ | ⟨x, v, -, -, rfl⟩ | ⟨i, f, hr⟩ | ⟨-, rfl⟩
    · exact (command_operands i _).2.2.2.2.2.2.1
    · rfl
    · simp
    · rfl
    · rfl
    · rfl
    · rw [racedRun_exec] at hr
      injection hr with hr
      rw [hr]
      split
      · exact (command_operands i _).2.2.2.2.2.2.1
      · rw [afterRace_bus, racedCommandWith_frame]
        exact (command_operands i _).2.2.2.2.2.2.1
    · rfl

end Sys2Proof.Machine
end

