-- ==== Sys2Proof/Laws/PerInstr.lean ====
section
/-! SUPPORT. Per command, as syntax: it is well formed and its word decodes to it (30_encoding R61, R65). -/

namespace Sys2Proof.Laws.DecodeEncode

/-- A command is well formed, and the word with its opcode and reserved bits 0 decodes to it. -/
def Statement (i : Instr) : Prop := i.wf = true ∧ decode (encode i) = .ok i

theorem encInit : Statement .encInit := ⟨rfl, rfl⟩
theorem decInit : Statement .decInit := ⟨rfl, rfl⟩
theorem blocksize : Statement .blocksize := ⟨rfl, rfl⟩
theorem transform : Statement .transform := ⟨rfl, rfl⟩
theorem encOnce : Statement .encOnce := ⟨rfl, rfl⟩
theorem decOnce : Statement .decOnce := ⟨rfl, rfl⟩

end Sys2Proof.Laws.DecodeEncode
end

