-- ==== Sys2Proof/Tests/Slice0.lean ====
section
/-! SUPPORT. The model's own tests. Expected results are the spec's: 95_test_vectors.md (its test cipher ROT4 and its
common setup), or the rule named. The second half shows, for every statement of Certificates/Slice0 that has
hypotheses, a concrete state that meets them. -/

open Sys2Proof Sys2Proof.Machine

namespace Sys2Proof.Tests

/-! ### Well-formedness: an ill-formed line for each check (R66) -/

theorem test_wf_wr : (Line.wr .op0 (2 ^ 64)).wf = false ∧ (Line.wr .op0 (2 ^ 64 - 1)).wf = true := by decide
theorem test_wf_encInit : (Line.encInit (2 ^ 64) 8).wf = false ∧ (Line.encInit 0 (2 ^ 64)).wf = false := by decide
theorem test_wf_decInit : (Line.decInit (2 ^ 64) 8).wf = false ∧ (Line.decInit 0 (2 ^ 64)).wf = false := by decide
theorem test_wf_transform : (Line.transform (2 ^ 64) 4 0 4).wf = false ∧ (Line.transform 0 (2 ^ 64) 0 4).wf = false ∧
    (Line.transform 0 4 (2 ^ 64) 4).wf = false ∧ (Line.transform 0 4 0 (2 ^ 64)).wf = false := by decide
theorem test_wf_encOnce : (Line.encOnce (2 ^ 64) 4 0 4 0 8).wf = false ∧ (Line.encOnce 0 (2 ^ 64) 0 4 0 8).wf = false ∧
    (Line.encOnce 0 4 (2 ^ 64) 4 0 8).wf = false ∧ (Line.encOnce 0 4 0 (2 ^ 64) 0 8).wf = false ∧
    (Line.encOnce 0 4 0 4 (2 ^ 64) 8).wf = false ∧ (Line.encOnce 0 4 0 4 0 (2 ^ 64)).wf = false := by decide
theorem test_wf_decOnce : (Line.decOnce (2 ^ 64) 4 0 4 0 8).wf = false ∧ (Line.decOnce 0 (2 ^ 64) 0 4 0 8).wf = false ∧
    (Line.decOnce 0 4 (2 ^ 64) 4 0 8).wf = false ∧ (Line.decOnce 0 4 0 (2 ^ 64) 0 8).wf = false ∧
    (Line.decOnce 0 4 0 4 (2 ^ 64) 8).wf = false ∧ (Line.decOnce 0 4 0 4 0 (2 ^ 64)).wf = false := by decide

/-! ### Decoding: the words written out from R60 (RSVD 63:8, OPCODE 7:0) and R61 -/

/-- A command word from its fields as R60 lays them out: 56 reserved bits, then 8 opcode bits. -/
def word (rsvd : BitVec 56) (op : BitVec 8) : Word := rsvd ++ op

theorem test_decode_encInit : decode (word 0 0b00000001) = .ok .encInit := by decide
theorem test_decode_decInit : decode (word 0 0b00000010) = .ok .decInit := by decide
theorem test_decode_blocksize : decode (word 0 0b00000011) = .ok .blocksize := by decide
theorem test_decode_transform : decode (word 0 0b00000100) = .ok .transform := by decide
theorem test_decode_encOnce : decode (word 0 0b00000101) = .ok .encOnce := by decide
theorem test_decode_decOnce : decode (word 0 0b00000110) = .ok .decOnce := by decide

/-- The illegal words of 3.8, each rejected by name. -/
theorem test_decode_illegal :
    decode 0x0000000000000000 = .error (.unassignedOpcode 0) ∧ decode 0x0000000000000007 = .error (.unassignedOpcode 7) ∧
      decode 0x00000000000000FF = .error (.unassignedOpcode 255) ∧ decode 0x0000000000000101 = .error .reservedBits ∧
      decode 0x8000000000000004 = .error .reservedBits := by decide

/-- The table gives a row 64 bits; a shorter row's bits above are 0. -/
theorem test_decodeTableWord : decodeTableWord 64 4 = some .transform ∧ decodeTableWord 8 6 = some .decOnce ∧
    decodeTableWord 64 0 = none ∧ decodeTableWord 64 0x104 = none := by decide

/-- Right after reset, `step` fetches and runs the word placed for it. -/
theorem test_withFetchWord (w : Nat) (i : Instr) (h : decodeTableWord 64 w = some i) :
    step (State.reset.withFetchWord 64 w) = exec i State.reset := by
  unfold decodeTableWord at h
  split at h
  · next j hj =>
    cases h
    exact runWord_ok hj _
  · cases h

/-! ### The spec's vectors, one step each, with ROT4 and the common setup of 95_test_vectors section 2 -/

/-- ROT4: rotate left by one byte, then XOR with 0x5A. -/
def rot4 : Params where
  blockSize := 4
  enc x := (x.drop 1 ++ x.take 1).map (· ^^^ 0x5A)
  dec y := (y.drop 3 ++ y.take 3).map (· ^^^ 0x5A)
  aliasCheck := true

/-- The bytes of a hexadecimal numeral, byte 0 first (R11). -/
def hex (n v : Nat) : Bytes := ((List.range n).map fun k => BitVec.ofNat 8 (v / 256 ^ k)).reverse

/-- P, the plaintext of the common setup. -/
def plain : Bytes := hex 12 0x00112233445566778899AABB

/-- C, the ciphertext of 3.3. -/
def cipher : Bytes := hex 12 0x4C7D6A5372475C61C0F9E6D7

/-- An engine after ENC_INIT or DEC_INIT with the common IV; with mode NONE, one with other accumulators. -/
def engine (m : Mode) (a b c d e f : Nat) : Engine where
  mode := m
  prevC := if m = .none then hex 4 0xAAAAAAAA else hex 4 0x01020304
  prevP := if m = .none then hex 4 0xBBBBBBBB else hex 4 0x05060708
  blocks := 0
  op0 := .ofNat 64 a
  op1 := .ofNat 64 b
  op2 := .ofNat 64 c
  op3 := .ofNat 64 d
  op4 := .ofNat 64 e
  op5 := .ofNat 64 f
  status := 0
  result := 0

/-- The common setup memory, and C at 0x3000 for the decoder's vectors. -/
def memory : Memory :=
  ((Memory.writeBytes [] 0x1000 (hex 8 0x0102030405060708)).writeBytes 0x2000 plain).writeBytes 0x3000 cipher

/-- The state in which the host writes command `i` to CMD, its operands in place. -/
def vector (i : Instr) (m : Mode) (a b c d e f : Nat) : State where
  toEngine := engine m a b c d e f
  mem := memory
  free := 2
  bus := [.regWrite 0x00 64 (encode i)]
  answers := []

/-- What holds after one step over ROT4. -/
def after (s : State) (claim : State → Bool) : Bool :=
  match stepWith rot4 s with
  | .next t => claim t
  | .fault _ => false
  | .refused _ => false

/-- 3.1.2: an IV that ends at the top byte is in range, one byte further is not. -/
theorem test_encInit_range :
    after (vector .encInit .none 0xFFFFFFFFFFFFFFF8 8 0 0 0 0) (fun t => t.status = 0x000 ∧ t.mode = .enc) = true ∧
      after (vector .encInit .none 0xFFFFFFFFFFFFFFF9 8 0 0 0 0) (fun t => t.status = 0x107 ∧ t.mode = .none) = true := by
  decide

/-- 3.1.1: length 7 fails; length 8 seeds PREV_C with the first half and PREV_P with the second. -/
theorem test_decInit_length :
    after (vector .decInit .none 0x1000 7 0 0 0 0) (fun t => t.status = 0x101 ∧ t.mode = .none) = true ∧
      after (vector .decInit .none 0x1000 8 0 0 0 0)
        (fun t => t.mode = .dec ∧ t.prevC = hex 4 0x01020304 ∧ t.prevP = hex 4 0x05060708) = true := by decide

/-- 3.2.1: BLOCKSIZE works with no chain. -/
theorem test_blocksize :
    after (vector .blocksize .none 0 0 0 0 0 0) (fun t => t.result = 4 ∧ t.status = 0x000 ∧ t.mode = .none) = true := by
  decide

/-- 3.5.20 with the accumulators of 3.3: in-place encode over three blocks; and 3.4.1, the decoder. -/
theorem test_transform_chains :
    after (vector .transform .enc 0x2000 12 0x2000 12 0 0)
      (fun t => t.mem.readBytes 0x2000 12 = cipher ∧ t.prevC = hex 4 0xC0F9E6D7 ∧ t.prevP = hex 4 0x8899AABB ∧
        t.blocks = 3) = true ∧
      after (vector .transform .dec 0x4000 12 0x3000 12 0 0)
        (fun t => t.mem.readBytes 0x4000 12 = plain ∧ t.prevC = hex 4 0xC0F9E6D7 ∧ t.prevP = hex 4 0x8899AABB) = true := by
  decide

/-- 3.5.11, 3.5.15, 3.5.14: a one-byte overlap fails, dst right after src does not, range comes before overlap. -/
theorem test_transform_overlap :
    after (vector .transform .enc 0x2007 8 0x2000 8 0 0) (fun t => t.status = 0x104 ∧ t.mem = memory) = true ∧
      after (vector .transform .enc 0x2008 8 0x2000 8 0 0)
        (fun t => t.mem.readBytes 0x2000 16 = hex 16 0x00112233445566774C7D6A5372475C61) = true ∧
      after (vector .transform .enc 0xFFFFFFFFFFFFFFFC 8 0xFFFFFFFFFFFFFFFB 8 0 0) (fun t => t.status = 0x107) = true := by
  decide

/-- 3.6.3 and, with IV and dst both at 0x1000, 3.6.5: the IV is read whole before dst is written over it. -/
theorem test_encOnce :
    after (vector .encOnce .none 0x4000 12 0x2000 12 0x1000 8)
      (fun t => t.mem.readBytes 0x4000 12 = cipher ∧ t.status = 0x000 ∧ t.mode = .none ∧ t.blocks = 0) = true ∧
      after (vector .encOnce .none 0x1000 12 0x2000 12 0x1000 8) (fun t => t.mem.readBytes 0x1000 12 = cipher) = true := by
  decide

/-- 3.6.4: in-place decode. -/
theorem test_decOnce_in_place :
    after (vector .decOnce .none 0x3000 12 0x3000 12 0x1000 8)
      (fun t => t.mem.readBytes 0x3000 12 = plain ∧ t.status = 0x000) = true := by decide

/-- 3.6.7: the IV's errors come before the buffers'. -/
theorem test_decOnce_order :
    after (vector .decOnce .none 0x3000 12 0x2000 3 0x1000 7) (fun t => t.status = 0x101) = true ∧
      after (vector .decOnce .none 0x3000 12 0x2000 3 0xFFFFFFFFFFFFFFFC 8) (fun t => t.status = 0x107) = true ∧
      after (vector .decOnce .none 0x3000 4 0x2000 8 0x1000 8) (fun t => t.status = 0x103) = true := by decide

/-- R53: a byte read and written in place is in the overlap when a peer only reads it, and what the command reads from
it is raced; a byte read alone is not. A peer's write races with either. -/
theorem test_race_overlap :
    racedReads { reads := [⟨0, 2⟩], writes := [⟨0, 2⟩] } { reads := [⟨1, 4⟩], writes := [] } = [1] ∧
      racedReads { reads := [⟨0, 2⟩], writes := [⟨8, 2⟩] } { reads := [⟨1, 4⟩], writes := [] } = [] ∧
      racedReads { reads := [⟨0, 2⟩], writes := [⟨8, 2⟩] } { reads := [], writes := [⟨1, 4⟩] } = [1] ∧
      racedWrites { reads := [⟨0, 2⟩], writes := [⟨8, 2⟩] } { reads := [⟨9, 4⟩], writes := [] } = [9] := by decide

/-- R53: a raced byte feeds the chain after its own block: with one in src block 2 of 3 the three blocks of 3.6.3 are as
they were, given the bytes read; with one in the IV the transient chain starts from the next two free values. -/
theorem test_race_feeds_the_chain :
    (racedCommandWith rot4 .encOnce [0x2008] (vector .encOnce .none 0x4000 12 0x2000 12 0x1000 8)).mem.readBytes
        0x4000 12 = cipher ∧
      (racedCommandWith rot4 .encOnce [0x1007] (vector .encOnce .none 0x4000 4 0x2000 4 0x1000 8)).free = 4 := by decide

/-! ### The register block (3.9) and the host syntax (R66, R67) -/

/-- The vector's state with another access in front. -/
def access (a : Access) : State := { vector .blocksize .enc 0 0 0 0 0 0 with bus := [a] }

/-- An illegal word of 3.8: STATUS = 0x106 and nothing else. -/
theorem test_illegal_word :
    after (access (.regWrite 0x00 64 0x8000000000000004))
      (fun t => t = { access .powerOn with bus := [], status := 0x106 }) = true := by decide

/-- MODE reads 1, a write of 5 to it is ignored, CMD and offset 0x58 read 0. -/
theorem test_register_block :
    after (access (.regRead 0x18 64)) (fun t => t.answers = [.reg 1]) = true ∧
      after (access (.regWrite 0x18 64 5)) (fun t => t.mode = .enc) = true ∧
      after (access (.regRead 0x00 64)) (fun t => t.answers = [.reg 0]) = true ∧
      after (access (.regRead 0x58 64)) (fun t => t.answers = [.reg 0]) = true := by decide

/-- A 32-bit access and a 64-bit access at offset 4 get no transition. -/
theorem test_undefined_access :
    stepWith rot4 (access (.regRead 0x08 32)) = .refused (.undefinedAccess 0x08 32) ∧
      stepWith rot4 (access (.regWrite 0x04 64 0)) = .refused (.undefinedAccess 0x04 64) := ⟨rfl, rfl⟩

/-- A line of program P1 with its comment, as text. -/
theorem test_readLine :
    readLine "TRANSFORM 0x3000, 8, 0x2000, 8      ; comment".toList = some (some (.transform 0x3000 8 0x2000 8)) ∧
      readLine "WR CMD, 0x07".toList = some (some (.wr .cmd 7)) ∧ readLine "RD STATUS".toList = some (some (.rd .status)) := by
  decide

/-- A text of two lines; and a value of `2^64` is no value (R66). -/
theorem test_readProgram :
    readProgram "ENC_INIT 0x1000, 8 ; iv\nRD STATUS\n".toList = some [.encInit 0x1000 8, .rd .status] ∧
      readLine "WR OP0, 18446744073709551616".toList = none := by decide

/-! ### Witnesses: for every statement with hypotheses, a state that meets them all

The block size is open, so the states below are written over it; `B` in their comments is `Config.blockSize`. -/

/-- A state with a chain of kind `m`, given operands and accesses, and one listed byte of memory. -/
def given (m : Mode) (a b c d e f : Nat) (bus : List Access) : State where
  mode := m
  prevC := List.replicate Config.blockSize 0
  prevP := List.replicate Config.blockSize 0
  blocks := 0
  op0 := .ofNat 64 a
  op1 := .ofNat 64 b
  op2 := .ofNat 64 c
  op3 := .ofNat 64 d
  op4 := .ofNat 64 e
  op5 := .ofNat 64 f
  status := 0
  result := 0
  mem := [(0, 1)]
  free := 2
  bus := bus
  answers := []

theorem given_mem (m : Mode) (a b c d e f : Nat) (bus : List Access) : (given m a b c d e f bus).mem.wf :=
  (by decide : Memory.wf [(0, 1)])

theorem given_inv (m : Mode) (a b c d e f : Nat) (bus : List Access) :
    (given m a b c d e f bus).Inv Config.params :=
  ⟨⟨by simp [given], by simp [given], (by decide : reservedStatus 0 = 0), (by decide : codeField 0 ≤ 7),
    (by decide : codeField 0 ≠ 0 → anyErrorField 0 = true), .inl rfl, fun _ => rfl⟩, given_mem m a b c d e f bus⟩

/-- A register written with a number below `2^64` reads as that number. -/
theorem toNat_reg {a : Nat} (h : a < 2 ^ 64) : (BitVec.ofNat 64 a).toNat = a := by
  rw [BitVec.toNat_ofNat]
  omega

theorem given_iv (m : Mode) (a b c d e : Nat) (bus : List Access) (he : e + 2 * Config.blockSize ≤ 2 ^ 64) :
    GoodIv Config.params (onceIvAddr (given m a b c d e (2 * Config.blockSize) bus))
      (onceIvLen (given m a b c d e (2 * Config.blockSize) bus)) := by
  have hf := Config.iv_fits
  have hB := Config.blockSize_pos
  refine ⟨toNat_reg hf, ?_⟩
  have e1 : onceIvAddr (given m a b c d e (2 * Config.blockSize) bus) = e := toNat_reg (by omega)
  rw [e1]
  exact he

theorem given_initIv (m : Mode) (a c d e f : Nat) (bus : List Access) (ha : a + 2 * Config.blockSize ≤ 2 ^ 64) :
    GoodIv Config.params (initIvAddr (given m a (2 * Config.blockSize) c d e f bus))
      (initIvLen (given m a (2 * Config.blockSize) c d e f bus)) :=
  given_iv m a (2 * Config.blockSize) c d a bus ha

/-- The operands of `given` read as the numbers it was given, below `2^64`. -/
theorem given_operands (m : Mode) {a b c d : Nat} (e f : Nat) (bus : List Access) (ha : a < 2 ^ 64) (hb : b < 2 ^ 64)
    (hc : c < 2 ^ 64) (hd : d < 2 ^ 64) :
    dstAddr (given m a b c d e f bus) = a ∧ dstLen (given m a b c d e f bus) = b ∧
      srcAddr (given m a b c d e f bus) = c ∧ srcLen (given m a b c d e f bus) = d :=
  ⟨toNat_reg ha, toNat_reg hb, toNat_reg hc, toNat_reg hd⟩

/-- Good buffers among the states `given`. -/
theorem given_buffers (m : Mode) {a b c d : Nat} (e f : Nat) (bus : List Access) (hd : 0 < d)
    (hm : d % Config.blockSize = 0) (hs : d ≤ b) (hc : c + d ≤ 2 ^ 64) (ha : a + b ≤ 2 ^ 64) (hb : b < 2 ^ 64)
    (hov : a = c ∨ a + d ≤ c ∨ c + d ≤ a) : GoodBuffers Config.params (given m a b c d e f bus) := by
  obtain ⟨e0, e1, e2, e3⟩ := given_operands m (a := a) (b := b) (c := c) (d := d) e f bus (by omega) hb (by omega)
    (by omega)
  refine ⟨?_, ?_, ?_, ?_, ?_, ?_⟩ <;> simp only [e0, e1, e2, e3, Config.params_blockSize]
  · omega
  · exact hm
  · exact hs
  · exact hc
  · exact ha
  · exact hov

/-- One block from `B` to 0, with the IV at 0: good operands of every storing command. -/
def ready (m : Mode) (bus : List Access) : State :=
  given m 0 Config.blockSize Config.blockSize Config.blockSize 0 (2 * Config.blockSize) bus

theorem ready_inv (m : Mode) (bus : List Access) : (ready m bus).Inv Config.params := given_inv ..

theorem ready_buffers (m : Mode) (bus : List Access) : GoodBuffers Config.params (ready m bus) := by
  have := Config.iv_fits
  have := Config.blockSize_pos
  exact given_buffers m 0 _ bus (by omega) (Nat.mod_self _) le_rfl (by omega) (by omega) (by omega) (by omega)

theorem ready_iv (m : Mode) (bus : List Access) :
    GoodIv Config.params (onceIvAddr (ready m bus)) (onceIvLen (ready m bus)) := by
  have := Config.iv_fits
  exact given_iv m 0 _ _ _ 0 bus (by omega)

theorem ready_srcLen (m : Mode) (bus : List Access) : srcLen (ready m bus) = Config.blockSize := by
  have := Config.iv_fits
  exact toNat_reg (by omega)

/-- Good IV operands of a construction at 0. -/
def seeding (m : Mode) (bus : List Access) : State := given m 0 (2 * Config.blockSize) 0 0 0 0 bus

theorem seeding_iv (m : Mode) (bus : List Access) :
    GoodIv Config.params (initIvAddr (seeding m bus)) (initIvLen (seeding m bus)) := by
  have := Config.iv_fits
  exact given_initIv m 0 _ _ _ _ bus (by omega)

/-- A command without an error succeeds with code OK. -/
theorem succeeds {i : Instr} {s : State} (h : commandError Config.params i s = none) :
    ∃ t, exec i s = .next t ∧ codeField t.status = 0 := ⟨_, exec_eq i s, (command_ok_iff ..).mpr h⟩

theorem ready_transform {m : Mode} (hm : m ≠ .none) (bus : List Access) :
    commandError Config.params .transform (ready m bus) = none :=
  (commandError_eq_none_iff (P := Config.params) rfl .transform _).mpr ⟨hm, ready_buffers m bus⟩

/-! #### Encoding and steps -/

theorem witness_CommandEncodingLosesNothing :
    Instr.encInit.wf = true ∧ decode 0x0000000000000006 = .ok .decOnce ∧
      (Line.encOnce (2 ^ 64 - 1) 0 0 0 0 (2 ^ 64 - 1)).wf = true ∧
      lineCommand (.encOnce (2 ^ 64 - 1) 0 0 0 0 (2 ^ 64 - 1)) ≠ none := by decide

theorem witness_StepRunsTheDecodedCommand :
    (ready .enc [.regWrite 0x00 64 4]).bus = .regWrite 0x00 64 4 :: [] ∧ decode 4 = .ok .transform ∧
      decodeTableWord 64 4 = some .transform := ⟨rfl, rfl, rfl⟩

/-- Each clause: a reserved bit, opcode 0, and the first opcode past the map. -/
theorem witness_IllegalWordChangesOnlyStatus :
    (ready .enc [.regWrite 0x00 64 0x101]).bus = .regWrite 0x00 64 0x101 :: [] ∧
      (0x101 : Word).toNat / 2 ^ 8 ≠ 0 ∧ (0x00 : Word).toNat % 2 ^ 8 = 0x00 ∧ 0x07 ≤ (0x07 : Word).toNat % 2 ^ 8 :=
  ⟨rfl, by decide, by decide, by decide⟩

/-! #### Construction -/

/-- An IV of `2*B` bytes that ends at the top byte. -/
def topIv (m : Mode) : State := given m (2 ^ 64 - 2 * Config.blockSize) (2 * Config.blockSize) 0 0 0 0 []

/-- An IV of `2*B` bytes that passes the top by one byte. -/
def overTopIv (m : Mode) : State := given m (2 ^ 64 - 2 * Config.blockSize + 1) (2 * Config.blockSize) 0 0 0 0 []

/-- An IV operand one byte short. -/
def shortIv (m : Mode) : State := given m 0 (2 * Config.blockSize - 1) 0 0 0 0 []

theorem witness_EncInitFollowsItsPseudocode (m : Mode) :
    ((topIv m).op1.toNat = 2 * Config.blockSize ∧ (topIv m).op0.toNat + 2 * Config.blockSize ≤ 2 ^ 64) ∧
      (shortIv m).op1.toNat ≠ 2 * Config.blockSize ∧
      ((overTopIv m).op1.toNat = 2 * Config.blockSize ∧ 2 ^ 64 < (overTopIv m).op0.toNat + 2 * Config.blockSize) := by
  have h := Config.iv_fits
  have hB := Config.blockSize_pos
  have e1 : (topIv m).op0.toNat = 2 ^ 64 - 2 * Config.blockSize := toNat_reg (by omega)
  have e2 : (overTopIv m).op0.toNat = 2 ^ 64 - 2 * Config.blockSize + 1 := toNat_reg (by omega)
  have e3 : (shortIv m).op1.toNat = 2 * Config.blockSize - 1 := toNat_reg (by omega)
  refine ⟨⟨toNat_reg h, ?_⟩, ?_, toNat_reg h, ?_⟩ <;> omega

theorem witness_DecInitFollowsItsPseudocode (m : Mode) :
    ((topIv m).op1.toNat = 2 * Config.blockSize ∧ (topIv m).op0.toNat + 2 * Config.blockSize ≤ 2 ^ 64) ∧
      (shortIv m).op1.toNat ≠ 2 * Config.blockSize ∧
      ((overTopIv m).op1.toNat = 2 * Config.blockSize ∧ 2 ^ 64 < (overTopIv m).op0.toNat + 2 * Config.blockSize) :=
  witness_EncInitFollowsItsPseudocode m

/-! #### TRANSFORM -/

theorem witness_EncoderWritesTheIgeChain :
    (ready .enc []).Inv Config.params ∧ (ready .enc []).mode = .enc ∧ GoodBuffers Config.params (ready .enc []) ∧
      0 < srcLen (ready .enc []) / Config.blockSize :=
  ⟨ready_inv .enc [], rfl, ready_buffers .enc [], (ready_buffers .enc []).blocks_pos⟩

theorem witness_DecoderWritesTheInverseChain :
    (ready .dec []).Inv Config.params ∧ (ready .dec []).mode = .dec ∧ GoodBuffers Config.params (ready .dec []) ∧
      0 < srcLen (ready .dec []) / Config.blockSize :=
  ⟨ready_inv .dec [], rfl, ready_buffers .dec [], (ready_buffers .dec []).blocks_pos⟩

theorem witness_TransformCompletion :
    (ready .enc []).Inv Config.params ∧ (ready .enc []).mode ≠ .none ∧ GoodBuffers Config.params (ready .enc []) :=
  ⟨ready_inv .enc [], by decide, ready_buffers .enc []⟩

/-- The first buffer error of `given` operands after the alignment check, as arithmetic. -/
theorem given_first (m : Mode) {a b c d : Nat} (e f : Nat) (bus : List Access) {code : Nat} (ha : a < 2 ^ 64)
    (hb : b < 2 ^ 64) (hc : c < 2 ^ 64) (hd : d < 2 ^ 64) (h0 : d ≠ 0) (hm : d % Config.blockSize = 0)
    (h : (code = 3 ∧ b < d) ∨ (d ≤ b ∧ ((code = 7 ∧ (2 ^ 64 < c + d ∨ 2 ^ 64 < a + b)) ∨
      (c + d ≤ 2 ^ 64 ∧ a + b ≤ 2 ^ 64 ∧ code = 4 ∧ a ≠ c ∧ a < c + d ∧ c < a + d)))) :
    FirstBufferError Config.params (given m a b c d e f bus) code := by
  obtain ⟨e0, e1, e2, e3⟩ := given_operands m e f bus ha hb hc hd
  unfold FirstBufferError
  rw [e0, e1, e2, e3]
  exact .inr ⟨h0, hm, h⟩

/-- The first buffer error for each code, at a boundary: an empty src; a dst one byte short; a src, then a dst, that
passes the top by one byte, the size check before it; a dst one byte above a src of two blocks. -/
theorem first_errors (m : Mode) (e f : Nat) (bus : List Access) :
    FirstBufferError Config.params (given m 0 0 0 0 e f bus) 2 ∧
      FirstBufferError Config.params (given m 0 (Config.blockSize - 1) 0 Config.blockSize e f bus) 3 ∧
      FirstBufferError Config.params
        (given m 0 Config.blockSize (2 ^ 64 - 2 * Config.blockSize + 1) (2 * Config.blockSize) e f bus) 3 ∧
      FirstBufferError Config.params
        (given m 0 (2 * Config.blockSize) (2 ^ 64 - 2 * Config.blockSize + 1) (2 * Config.blockSize) e f bus) 7 ∧
      FirstBufferError Config.params
        (given m (2 ^ 64 - 2 * Config.blockSize) (2 * Config.blockSize + 1) 0 (2 * Config.blockSize) e f bus) 7 ∧
      FirstBufferError Config.params (given m 1 (2 * Config.blockSize) 0 (2 * Config.blockSize) e f bus) 4 := by
  have h := Config.iv_fits
  have hB := Config.blockSize_pos
  have hm : 2 * Config.blockSize % Config.blockSize = 0 := Nat.mul_mod_left _ _
  have hs := Nat.mod_self Config.blockSize
  exact ⟨.inl ⟨rfl, .inl rfl⟩,
    given_first m e f bus (by omega) (by omega) (by omega) (by omega) (by omega) hs (by omega),
    given_first m e f bus (by omega) (by omega) (by omega) (by omega) (by omega) hm (by omega),
    given_first m e f bus (by omega) (by omega) (by omega) (by omega) (by omega) hm (by omega),
    given_first m e f bus (by omega) (by omega) (by omega) (by omega) (by omega) hm (by omega),
    given_first m e f bus (by omega) (by omega) (by omega) (by omega) (by omega) hm (by omega)⟩

/-- `first_errors` gives a state for every other code. -/
theorem witness_TransformReportsItsFirstError :
    State.reset.mode = .none ∧ (given .enc 0 0 0 0 0 0 []).mode ≠ .none ∧
      FirstBufferError Config.params (given .enc 0 0 0 0 0 0 []) 2 ∧
      FirstBufferError Config.params (given .enc 1 (2 * Config.blockSize) 0 (2 * Config.blockSize) 0 0 []) 4 :=
  ⟨rfl, by decide, (first_errors .enc 0 0 []).1, (first_errors .enc 0 0 []).2.2.2.2.2⟩

theorem witness_TransformIsDeterministic :
    (ready .enc []).Inv Config.params ∧
      ∃ t, exec .transform (ready .enc []) = .next t ∧ codeField t.status = 0 :=
  ⟨ready_inv .enc [], succeeds (ready_transform (by decide) [])⟩

/-- A decoder over the block that an encoder in `ready` wrote: src at 0, dst at `B`, the IV at `B`. -/
def decoderOver (mem : Memory) (c p : Bytes) : State :=
  { given .dec Config.blockSize Config.blockSize 0 Config.blockSize 0 (2 * Config.blockSize) [] with
    mem := mem, prevC := c, prevP := p }

theorem decoderOver_buffers (mem : Memory) (c p : Bytes) : GoodBuffers Config.params (decoderOver mem c p) := by
  have := Config.iv_fits
  have := Config.blockSize_pos
  have h := given_buffers .dec (a := Config.blockSize) (b := Config.blockSize) (c := 0) (d := Config.blockSize) 0
    (2 * Config.blockSize) [] (by omega) (Nat.mod_self _) le_rfl (by omega) (by omega) (by omega) (by omega)
  exact ⟨h.positive, h.aligned, h.size, h.srcRange, h.dstRange, h.apart⟩

theorem decoderOver_transform (mem : Memory) (c p : Bytes) :
    commandError Config.params .transform (decoderOver mem c p) = none :=
  (commandError_eq_none_iff (P := Config.params) rfl .transform _).mpr
    ⟨(by decide : Mode.dec ≠ .none), decoderOver_buffers mem c p⟩

/-- An encoder from `seeding`, its TRANSFORM of one block, and a decoder over what it wrote. -/
theorem witness_DecodingUndoesEncoding :
    ∃ s s₁ s₂ t u u₁ u₂ v : State,
      exec .encInit s = .next s₁ ∧ codeField s₁.status = 0 ∧ exec .decInit u = .next u₁ ∧ codeField u₁.status = 0 ∧
      s.mem.readBytes (initIvAddr s) (2 * Config.blockSize) = u.mem.readBytes (initIvAddr u) (2 * Config.blockSize) ∧
      s₂.mode = s₁.mode ∧ s₂.prevC = s₁.prevC ∧ s₂.prevP = s₁.prevP ∧ s₂.mem.wf ∧
      u₂.mode = u₁.mode ∧ u₂.prevC = u₁.prevC ∧ u₂.prevP = u₁.prevP ∧ u₂.mem.wf ∧
      exec .transform s₂ = .next t ∧ codeField t.status = 0 ∧ exec .transform u₂ = .next v ∧ codeField v.status = 0 ∧
      srcLen u₂ = srcLen s₂ ∧
      u₂.mem.readBytes (srcAddr u₂) (srcLen s₂) = t.mem.readBytes (dstAddr s₂) (srcLen s₂) := by
  have e1 := (commandError_eq_none_iff (P := Config.params) rfl .encInit (seeding .none [])).mpr (seeding_iv .none [])
  have e2 := (commandError_eq_none_iff (P := Config.params) rfl .decInit (seeding .none [])).mpr (seeding_iv .none [])
  let s₁ := commandWith Config.params .encInit (seeding .none [])
  let u₁ := commandWith Config.params .decInit (seeding .none [])
  let s₂ : State := { ready .enc [] with prevC := s₁.prevC, prevP := s₁.prevP }
  let t := commandWith Config.params .transform s₂
  let u₂ := decoderOver t.mem u₁.prevC u₁.prevP
  have hl := command_prev_lengths Config.params_lawful .encInit (given_inv .none 0 (2 * Config.blockSize) 0 0 0 0
    []).engine.prevC_length (given_inv .none 0 (2 * Config.blockSize) 0 0 0 0 []).engine.prevP_length
  have h3 : commandError Config.params .transform s₂ = none :=
    (commandError_congr rfl rfl rfl rfl rfl rfl rfl).trans (ready_transform (m := .enc) (by decide) [])
  have hm1 : s₁.mode = .enc := by
    show (commandWith Config.params .encInit _).mode = _
    rw [command_success e1]; rfl
  have hm2 : u₁.mode = .dec := by
    show (commandWith Config.params .decInit _).mode = _
    rw [command_success e2]; rfl
  exact ⟨seeding .none [], s₁, s₂, t, seeding .none [], u₁, u₂, _, exec_eq .., (command_ok_iff ..).mpr e1, exec_eq ..,
    (command_ok_iff ..).mpr e2, rfl, hm1.symm, rfl, rfl, (by decide : Memory.wf [(0, 1)]), hm2.symm, rfl, rfl,
    command_wf Config.params_lawful .transform hl.1 hl.2 ((by decide : Memory.wf [(0, 1)])), exec_eq .., (command_ok_iff ..).mpr h3,
    exec_eq .., (command_ok_iff ..).mpr (decoderOver_transform ..), rfl, rfl⟩

theorem witness_ChainsStayInStep :
    ∃ s t u v : State, s.Inv Config.params ∧ u.Inv Config.params ∧ s.mode = .enc ∧ u.mode = .dec ∧ s.prevC = u.prevC ∧
      s.prevP = u.prevP ∧ exec .transform s = .next t ∧ codeField t.status = 0 ∧ exec .transform u = .next v ∧
      codeField v.status = 0 ∧ srcLen u = srcLen s ∧
      u.mem.readBytes (srcAddr u) (srcLen s) = t.mem.readBytes (dstAddr s) (srcLen s) := by
  let t := commandWith Config.params .transform (ready .enc [])
  have ht := command_inv Config.params_lawful .transform (ready_inv .enc [])
  have hu : (decoderOver t.mem (ready .enc []).prevC (ready .enc []).prevP).Inv Config.params :=
    have h := given_inv .dec Config.blockSize Config.blockSize 0 Config.blockSize 0 (2 * Config.blockSize) []
    ⟨⟨h.engine.prevC_length, h.engine.prevP_length, h.engine.status_reserved, h.engine.code_legal, h.engine.error_sticky,
      h.engine.result_legal, h.engine.none_idle⟩, ht.mem_wf⟩
  exact ⟨ready .enc [], t, _, _, ready_inv .enc [], hu, rfl, rfl, rfl, rfl, exec_eq ..,
    (command_ok_iff ..).mpr (ready_transform (by decide) []), exec_eq ..,
    (command_ok_iff ..).mpr (decoderOver_transform ..), rfl, rfl⟩

/-- Two blocks in place at 0, one by one and at once. -/
theorem witness_TransformsConcatenate :
    ∃ (s t s' v w : State) (a₀ a₁ a₂ a₃ b₁ b₃ : Word),
      exec .transform s = .next t ∧ codeField t.status = 0 ∧
      s' = { t with op0 := a₀, op1 := a₁, op2 := a₂, op3 := a₃ } ∧
      a₀.toNat = dstAddr s + srcLen s ∧ a₂.toNat = srcAddr s + srcLen s ∧
      exec .transform s' = .next v ∧ codeField v.status = 0 ∧ b₃.toNat = srcLen s + a₃.toNat ∧
      exec .transform { s with op1 := b₁, op3 := b₃ } = .next w ∧ codeField w.status = 0 := by
  have h := Config.iv_fits
  have hB := Config.blockSize_pos
  have e : (BitVec.ofNat 64 Config.blockSize).toNat = Config.blockSize := toNat_reg (by omega)
  have e' : (BitVec.ofNat 64 (2 * Config.blockSize)).toNat = 2 * Config.blockSize := toNat_reg h
  have ok : ∀ {a b c d : Nat}, GoodBuffers Config.params (given .enc a b c d 0 0 []) →
      commandError Config.params .transform (given .enc a b c d 0 0 []) = none := fun g =>
    (commandError_eq_none_iff (P := Config.params) rfl .transform _).mpr ⟨(by decide : Mode.enc ≠ .none), g⟩
  have n1 := ok (given_buffers .enc (a := 0) (b := Config.blockSize) (c := 0) (d := Config.blockSize) 0 0 [] (by omega)
    (Nat.mod_self _) le_rfl (by omega) (by omega) (by omega) (by omega))
  have n2 := ok (given_buffers .enc (a := Config.blockSize) (b := Config.blockSize) (c := Config.blockSize)
    (d := Config.blockSize) 0 0 [] (by omega) (Nat.mod_self _) le_rfl (by omega) (by omega) (by omega) (by omega))
  have n3 := ok (given_buffers .enc (a := 0) (b := 2 * Config.blockSize) (c := 0) (d := 2 * Config.blockSize) 0 0 []
    (by omega) (Nat.mul_mod_left _ _) le_rfl (by omega) (by omega) (by omega) (by omega))
  obtain ⟨-, -, -, -, o4, o5, -⟩ := command_operands (P := Config.params) .transform
    (given .enc 0 Config.blockSize 0 Config.blockSize 0 0 [])
  have hm : (commandWith Config.params .transform (given .enc 0 Config.blockSize 0 Config.blockSize 0 0 [])).mode =
      .enc := by
    rw [command_success n1]; rfl
  have n2' : commandError Config.params .transform
      { commandWith Config.params .transform (given .enc 0 Config.blockSize 0 Config.blockSize 0 0 []) with
        op0 := .ofNat 64 Config.blockSize, op1 := .ofNat 64 Config.blockSize, op2 := .ofNat 64 Config.blockSize,
        op3 := .ofNat 64 Config.blockSize } = none := by
    rw [← n2]
    exact commandError_congr hm rfl rfl rfl rfl o4 o5
  refine ⟨given .enc 0 Config.blockSize 0 Config.blockSize 0 0 [], _, _, _, _, .ofNat 64 Config.blockSize,
    .ofNat 64 Config.blockSize, .ofNat 64 Config.blockSize, .ofNat 64 Config.blockSize,
    .ofNat 64 (2 * Config.blockSize), .ofNat 64 (2 * Config.blockSize), exec_eq .., (command_ok_iff ..).mpr n1, rfl,
    ?_, ?_, exec_eq .., (command_ok_iff ..).mpr n2', ?_, exec_eq .., (command_ok_iff ..).mpr n3⟩
  · rw [e]; show _ = (BitVec.ofNat 64 0).toNat + (BitVec.ofNat 64 Config.blockSize).toNat; simp [e]
  · rw [e]; show _ = (BitVec.ofNat 64 0).toNat + (BitVec.ofNat 64 Config.blockSize).toNat; simp [e]
  · rw [e', e]; show _ = (BitVec.ofNat 64 Config.blockSize).toNat + _; omega

/-- Two decoders whose src blocks 0 differ: the byte at `B` is listed in the second only. -/
theorem witness_GarbleStartsAtTheChangedBlock :
    ∃ (s t u v : State) (k : Nat), s.Inv Config.params ∧ u.Inv Config.params ∧ s.mode = .dec ∧ u.mode = .dec ∧
      s.prevC = u.prevC ∧ s.prevP = u.prevP ∧ exec .transform s = .next t ∧ codeField t.status = 0 ∧
      exec .transform u = .next v ∧ codeField v.status = 0 ∧ srcLen u = srcLen s ∧ k < srcLen s / Config.blockSize ∧
      (∀ i, i < k → s.mem.block Config.blockSize (srcAddr s) i = u.mem.block Config.blockSize (srcAddr u) i) ∧
      s.mem.block Config.blockSize (srcAddr s) k ≠ u.mem.block Config.blockSize (srcAddr u) k := by
  have h := Config.iv_fits
  have hB := Config.blockSize_pos
  have hw : Memory.wf [(Config.blockSize, 1)] := by
    refine ⟨List.pairwise_singleton .., fun c hc => ?_⟩
    rw [List.mem_singleton.mp hc]
    exact ⟨by show Config.blockSize < _; omega, by show (1 : Byte) ≠ unlistedByte; decide⟩
  have hi := ready_inv .dec []
  have ha : srcAddr (ready .dec []) = Config.blockSize := toNat_reg (by omega)
  refine ⟨ready .dec [], _, (ready .dec []).setMem [(Config.blockSize, 1)], _, 0, hi, ⟨hi.engine, hw⟩, rfl, rfl, rfl, rfl,
    exec_eq .., (command_ok_iff ..).mpr (ready_transform (by decide) []), exec_eq .., (command_ok_iff ..).mpr
    ((commandError_congr rfl rfl rfl rfl rfl rfl rfl).trans (ready_transform (m := .dec) (by decide) [])), rfl,
    (ready_buffers .dec []).blocks_pos, fun i hi => absurd hi (by omega), fun he => ?_⟩
  have := (Memory.readBytes_eq_iff ..).mp he Config.blockSize (by rw [ha]; simp [blockAddr])
    (by rw [ha]; simp [blockAddr]; omega)
  have e1 : (ready .dec []).mem.read Config.blockSize = 0 := by
    show Memory.read [(0, 1)] Config.blockSize = 0
    simp [Memory.read, show ¬ 0 = Config.blockSize by omega, unlistedByte]
  rw [e1] at this
  simp [Memory.read] at this

/-! #### One-shot commands -/

/-- Each clause: an empty IV; an IV that passes the top by one byte; each buffer error at its boundary behind a good IV;
good operands. -/
theorem witness_EncOnceFollowsItsPseudocode (m : Mode) :
    onceIvLen (given m 0 0 0 0 0 0 []) ≠ 2 * Config.blockSize ∧
      (onceIvLen (given m 0 0 0 0 (2 ^ 64 - 2 * Config.blockSize + 1) (2 * Config.blockSize) []) = 2 * Config.blockSize ∧
        2 ^ 64 < onceIvAddr (given m 0 0 0 0 (2 ^ 64 - 2 * Config.blockSize + 1) (2 * Config.blockSize) []) +
          2 * Config.blockSize) ∧
      (GoodIv Config.params (onceIvAddr (given m 0 0 0 0 0 (2 * Config.blockSize) []))
          (onceIvLen (given m 0 0 0 0 0 (2 * Config.blockSize) [])) ∧
        FirstBufferError Config.params (given m 0 0 0 0 0 (2 * Config.blockSize) []) 2) ∧
      ((ready m []).Inv Config.params ∧
        GoodIv Config.params (onceIvAddr (ready m [])) (onceIvLen (ready m [])) ∧
        GoodBuffers Config.params (ready m []) ∧ 0 < srcLen (ready m []) / Config.blockSize) := by
  have h := Config.iv_fits
  have hB := Config.blockSize_pos
  have e : onceIvAddr (given m 0 0 0 0 (2 ^ 64 - 2 * Config.blockSize + 1) (2 * Config.blockSize) []) =
      2 ^ 64 - 2 * Config.blockSize + 1 := toNat_reg (by omega)
  refine ⟨?_, ⟨toNat_reg h, by omega⟩, ⟨given_iv m 0 0 0 0 0 [] (by omega), (first_errors m 0 _ []).1⟩, ready_inv m [],
    ready_iv m [], ready_buffers m [], (ready_buffers m []).blocks_pos⟩
  show (BitVec.ofNat 64 0).toNat ≠ _
  rw [toNat_reg (by omega)]
  omega

theorem witness_DecOnceFollowsItsPseudocode (m : Mode) :
    (onceIvLen (given m 0 0 0 0 0 0 []) ≠ 2 * Config.blockSize) ∧
      (GoodIv Config.params (onceIvAddr (given m 1 (2 * Config.blockSize) 0 (2 * Config.blockSize) 0
          (2 * Config.blockSize) [])) (onceIvLen (given m 1 (2 * Config.blockSize) 0 (2 * Config.blockSize) 0
          (2 * Config.blockSize) [])) ∧
        FirstBufferError Config.params (given m 1 (2 * Config.blockSize) 0 (2 * Config.blockSize) 0
          (2 * Config.blockSize) []) 4) ∧
      ((ready m []).Inv Config.params ∧ GoodIv Config.params (onceIvAddr (ready m [])) (onceIvLen (ready m [])) ∧
        GoodBuffers Config.params (ready m [])) := by
  have h := Config.iv_fits
  exact ⟨(witness_EncOnceFollowsItsPseudocode m).1,
    ⟨given_iv m _ _ _ _ 0 [] (by omega), (first_errors m 0 _ []).2.2.2.2.2⟩, ready_inv m [], ready_iv m [],
    ready_buffers m []⟩

theorem ready_once {i : Instr} (hi : i = .encOnce ∨ i = .decOnce) (m : Mode) (bus : List Access) :
    commandError Config.params i (ready m bus) = none := by
  rcases hi with rfl | rfl <;>
    exact (commandError_eq_none_iff (P := Config.params) rfl _ _).mpr ⟨ready_iv m bus, ready_buffers m bus⟩

theorem witness_OneShotKeepsTheChainContext :
    ∃ t, exec .encOnce (ready .dec []) = .next t ∧ codeField t.status = 0 := succeeds (ready_once (.inl rfl) .dec [])

/-- Both clauses: a failing construction and a successful one. -/
theorem witness_OneShotEqualsConstructThenTransform :
    (∃ t u, exec .encOnce (given .none 0 0 0 0 0 0 []) = .next t ∧
      exec .encInit { given .none 0 0 0 0 0 0 [] with op0 := (given .none 0 0 0 0 0 0 []).op4, op1 := (given .none 0 0 0 0 0 0 []).op5 } =
        .next u ∧ codeField u.status ≠ 0) ∧
      ∃ t u v, exec .decOnce (ready .none []) = .next t ∧
        exec .decInit { ready .none [] with op0 := (ready .none []).op4, op1 := (ready .none []).op5 } = .next u ∧
        codeField u.status = 0 ∧
        exec .transform { u with op0 := (ready .none []).op0, op1 := (ready .none []).op1 } = .next v := by
  refine ⟨⟨_, _, exec_eq .., exec_eq .., fun h => ?_⟩, _, _, _, exec_eq .., exec_eq .., (command_ok_iff ..).mpr ?_,
    exec_eq ..⟩
  · have := (checkIv_eq_none_iff (P := Config.params) (onceIvAddr (given .none 0 0 0 0 0 0 []))
      (onceIvLen (given .none 0 0 0 0 0 0 []))).mp ((command_ok_iff (P := Config.params) ..).mp h)
    exact (witness_EncOnceFollowsItsPseudocode .none).1 this.length
  · exact (checkIv_eq_none_iff (P := Config.params) ..).mpr (ready_iv .none [])

/-- A block of zeros. -/
def zeros : Bytes := List.replicate Config.blockSize 0

theorem xor_zeros (x : Bytes) (n : Nat) (h : x.length = n) :
    xorBytes x (List.replicate n 0) = x ∧ xorBytes (List.replicate n 0) x = x := by
  subst h
  induction x with
  | nil => exact ⟨rfl, rfl⟩
  | cons b rest ih =>
    simp only [xorBytes, List.length_cons, List.replicate_succ, List.zipWith_cons_cons] at ih ⊢
    exact ⟨by rw [ih.1]; simp, by rw [ih.2]; simp⟩

/-- Memory with `Enc(0)` at 0 and zeros behind: with the IV, src and dst all at 0, ENC_ONCE writes what stands there,
so no third block is needed, however large `B` is. -/
def loopMemory : Memory := Memory.writeBytes [] 0 (Config.enc zeros)

/-- IV, src and dst at 0, one block. -/
def looping : State :=
  { given .none 0 Config.blockSize 0 Config.blockSize 0 (2 * Config.blockSize) [] with mem := loopMemory }

theorem looping_good : looping.mem.wf ∧ GoodBuffers Config.params looping ∧
    GoodIv Config.params (onceIvAddr looping) (onceIvLen looping) := by
  have h := Config.iv_fits
  have hB := Config.blockSize_pos
  have hl : (Config.enc zeros).length = Config.blockSize := Config.enc_length _ (by simp [zeros])
  have g := given_buffers .none (a := 0) (b := Config.blockSize) (c := 0) (d := Config.blockSize) 0
    (2 * Config.blockSize) [] (by omega) (Nat.mod_self _) le_rfl (by omega) (by omega) (by omega) (.inl rfl)
  exact ⟨Memory.writeBytes_wf [] (by decide) _ 0 (by rw [hl]; omega),
    ⟨g.positive, g.aligned, g.size, g.srcRange, g.dstRange, g.apart⟩,
    given_iv .none 0 Config.blockSize 0 Config.blockSize 0 [] (by omega)⟩

theorem witness_OneShotRoundTrip :
    ∃ s t u v : State, s.mem.wf ∧ u.mem.wf ∧ exec .encOnce s = .next t ∧ codeField t.status = 0 ∧
      exec .decOnce u = .next v ∧ codeField v.status = 0 ∧
      s.mem.readBytes (onceIvAddr s) (2 * Config.blockSize) = u.mem.readBytes (onceIvAddr u) (2 * Config.blockSize) ∧
      srcLen u = srcLen s ∧ u.mem.readBytes (srcAddr u) (srcLen s) = t.mem.readBytes (dstAddr s) (srcLen s) := by
  have h := Config.iv_fits
  have hB := Config.blockSize_pos
  obtain ⟨hw, hb, hv⟩ := looping_good
  have hl : (Config.enc zeros).length = Config.blockSize := Config.enc_length _ (by simp [zeros])
  have he := (commandError_eq_none_iff (P := Config.params) rfl .encOnce looping).mpr ⟨hv, hb⟩
  have hd := (commandError_eq_none_iff (P := Config.params) rfl .decOnce looping).mpr ⟨hv, hb⟩
  refine ⟨looping, _, looping, _, hw, hw, exec_eq .., (command_ok_iff ..).mpr he, exec_eq .., (command_ok_iff ..).mpr hd,
    rfl, rfl, ?_⟩
  have hs : srcLen looping = Config.blockSize := toNat_reg (by omega)
  have first : loopMemory.readBytes 0 Config.blockSize = Config.enc zeros := by
    have := Memory.readBytes_writeBytes_same [] (by decide) (Config.enc zeros) 0 (by rw [hl]; omega)
    rwa [hl] at this
  have second : loopMemory.readBytes Config.blockSize Config.blockSize = zeros := by
    rw [loopMemory, Memory.readBytes_writeBytes_outside _ _ _ _ _ (.inr (by rw [hl]; omega))]
    simp [Memory.readBytes, Memory.read, zeros, unlistedByte]
  have out := chainRun_dst_block Config.params_lawful .enc 0 0 1 0 (l := onceLoop Config.params looping) (by simp)
    (by simp) hw (by simp only [Config.params_blockSize]; omega) (by omega) (.inl rfl)
  rw [hs, once_good (P := Config.params) rfl (.inl ⟨rfl, rfl⟩) hv hb, hs,
    show Config.blockSize / Config.params.blockSize = 1 from Nat.div_self hB]
  have same : (encStep Config.params (Config.enc zeros) (Config.enc zeros) zeros).out = Config.enc zeros := by
    have e0 : xorBytes (Config.enc zeros) (Config.enc zeros) = zeros := by
      have := xorBytes_cancel zeros (Config.enc zeros) (by rw [hl]; simp [zeros])
      rwa [zeros, (xor_zeros (Config.enc (List.replicate _ 0)) _ hl).2] at this
    show xorBytes (Config.enc (xorBytes (Config.enc zeros) (Config.enc zeros))) zeros = _
    rw [e0]
    exact (xor_zeros _ _ hl).1
  have at0 : ∀ m : Memory, m.block Config.blockSize 0 0 = m.readBytes 0 Config.blockSize := fun m => by
    simp [Memory.block, blockAddr]
  refine Eq.trans first (Eq.trans ?_ (at0 _))
  refine Eq.trans same.symm (Eq.trans ?_ out.symm)
  show (encStep _ _ _ _).out = (encStep Config.params (loopMemory.block Config.blockSize 0 0)
    (loopMemory.readBytes 0 Config.blockSize) (loopMemory.readBytes (0 + Config.blockSize) Config.blockSize)).out
  rw [at0, Nat.zero_add, first, second]

/-! #### Errors and STATUS -/

theorem reset_transform : commandError Config.params .transform State.reset = some .notConfigured := by
  simp [commandError, transformError, State.reset, Engine.reset]

theorem witness_FailedCommandChangesOnlyStatus :
    ∃ t, exec .transform State.reset = .next t ∧ codeField t.status ≠ 0 :=
  ⟨_, exec_eq .., by rw [command_code, reset_transform]; decide⟩

theorem witness_CodesFollowTheCheckOrder :
    (∃ t, exec .decOnce (given .none 1 (2 * Config.blockSize) 0 (2 * Config.blockSize) 0 (2 * Config.blockSize) []) =
        .next t) ∧
      (ready .enc [.regWrite 0x00 64 7]).bus = .regWrite 0x00 64 7 :: [] ∧ 0x07 ≤ (7 : Word).toNat % 2 ^ 8 :=
  ⟨⟨_, exec_eq ..⟩, rfl, by decide⟩

/-- Two states that differ in memory, accumulators and BLOCKS only. -/
theorem witness_ErrorsDependOnOperandsAndMode :
    let s := ready .enc [.regWrite 0x00 64 4]
    let u := { s with mem := [], prevC := [], prevP := [], blocks := 7 }
    s.bus = .regWrite 0x00 64 4 :: [] ∧ u.bus = .regWrite 0x00 64 4 :: [] ∧ s.mode = u.mode ∧ s.op0 = u.op0 ∧
      s.op1 = u.op1 ∧ s.op2 = u.op2 ∧ s.op3 = u.op3 ∧ s.op4 = u.op4 ∧ s.op5 = u.op5 :=
  ⟨rfl, rfl, rfl, rfl, rfl, rfl, rfl, rfl, rfl⟩

/-- An illegal word, and power-on reset of an engine with ANY_ERROR = 1. -/
theorem witness_AnyErrorIsSticky :
    (∃ t, step (ready .enc [.regWrite 0x00 64 0]) = .next t ∧ codeField t.status ≠ 0) ∧
      ∃ t, step { ready .enc [.powerOn] with status := 0x106 } = .next t ∧ anyErrorField (0x106 : Word) = true ∧
        anyErrorField t.status = false :=
  ⟨⟨_, rfl, by simp; decide⟩, _, rfl, by decide, by show anyErrorField 0 = false; decide⟩

/-- A run of one step that reads STATUS, looked at after it. -/
theorem witness_NoErrorAtTheEndMeansNoErrorBefore :
    (ready .enc [.regRead 0x08 64]).Inv Config.params ∧ Access.powerOn ∉ (ready .enc [.regRead 0x08 64]).bus ∧
      ∃ t, Sys2Proof.core.run 1 (ready .enc [.regRead 0x08 64]) = .next t ∧ anyErrorField t.status = false :=
  ⟨ready_inv .enc _, by show _ ∉ [Access.regRead 0x08 64]; decide, _, rfl, by show anyErrorField 0 = false; decide⟩

/-! #### Who writes what -/

/-- A construction from NONE, and a power-on reset from ENC. -/
theorem witness_OnlyConstructionAndResetWriteMode :
    (∃ t, step (seeding .none [.regWrite 0x00 64 1]) = .next t ∧ t.mode ≠ (seeding .none [.regWrite 0x00 64 1]).mode) ∧
      ∃ t, step (ready .enc [.powerOn]) = .next t ∧ t.mode ≠ (ready .enc [.powerOn]).mode := by
  refine ⟨⟨_, (step_access rfl).trans ((perform_cmd _ _ _).trans ((runWord_ok rfl _).trans (exec_eq .encInit _))), ?_⟩,
    _, rfl, by show Mode.none ≠ .enc; decide⟩
  show (commandWith Config.params .encInit (seeding .none [])).mode ≠ .none
  rw [command_success ((commandError_eq_none_iff (P := Config.params) rfl .encInit _).mpr (seeding_iv .none []))]
  show Mode.enc ≠ .none
  decide

/-- The IV's byte 0 is 1, PREV_C's was 0. -/
theorem witness_OnlyChainCommandsWriteTheAccumulators :
    ∃ t, exec .encInit (seeding .none []) = .next t ∧
      (t.prevC ≠ (seeding .none []).prevC ∨ t.prevP ≠ (seeding .none []).prevP) := by
  refine ⟨_, exec_eq .., .inl fun h => ?_⟩
  rw [command_success ((commandError_eq_none_iff (P := Config.params) rfl .encInit _).mpr (seeding_iv .none []))] at h
  have hB := Config.blockSize_pos
  have := congrArg (fun l => l[0]?) ((slice_readBytes_first ..).symm.trans h)
  have e : initIvAddr (seeding .none []) = 0 := toNat_reg (by omega)
  rw [e] at this
  have e0 : (Memory.readBytes [(0, 1)] 0 Config.blockSize)[0]? = some 1 := by
    simp [Memory.readBytes, Memory.read, List.getElem?_range hB]
  have e1 : (List.replicate Config.blockSize (0 : Byte))[0]? = some 0 := by
    simp [List.getElem?_replicate, show ¬ Config.blockSize = 0 by omega]
  exact absurd (e0.symm.trans (this.trans e1)) (by decide)

/-- A TRANSFORM of one block advances BLOCKS. -/
theorem witness_BlocksCountsThePersistentChain :
    ∃ t, step (ready .enc [.regWrite 0x00 64 4]) = .next t ∧ t.blocks ≠ (ready .enc [.regWrite 0x00 64 4]).blocks := by
  refine ⟨_, (step_access rfl).trans ((perform_cmd _ _ _).trans ((runWord_ok rfl _).trans (exec_eq .transform _))), ?_⟩
  have h := Config.blockSize_pos
  show (commandWith Config.params .transform (ready .enc [])).blocks ≠ 0
  rw [transform_good (P := Config.params) rfl (by decide : Mode.enc ≠ .none) (ready_buffers .enc [])]
  show (ready .enc []).blocks + BitVec.ofNat 64 (srcLen (ready .enc []) / Config.blockSize) ≠ 0
  rw [ready_srcLen, Nat.div_self h]
  show (0 : Word) + 1#64 ≠ 0
  decide

theorem witness_CommandsKeepOperandsAndResult :
    ∃ t, exec .encInit (seeding .none []) = .next t ∧ Instr.encInit ≠ .blocksize := ⟨_, exec_eq .., by decide⟩

/-- A successful TRANSFORM and the first byte behind what it writes. -/
theorem witness_CommandsStoreOnlyToDst :
    (ready .enc []).Inv Config.params ∧ (∃ t, exec .transform (ready .enc []) = .next t ∧ codeField t.status = 0) ∧
      dstAddr (ready .enc []) + srcLen (ready .enc []) ≤ Config.blockSize := by
  have e : dstAddr (ready .enc []) = 0 := toNat_reg (by omega)
  exact ⟨ready_inv .enc [], succeeds (ready_transform (by decide) []), by rw [e, ready_srcLen]; omega⟩

/-! #### Reset and invariants -/

theorem witness_ResetPutsEveryRegisterToItsValue :
    (ready .enc [.powerOn]).bus = .powerOn :: [] ∧ (ready .enc []).bus = [] := ⟨rfl, rfl⟩

theorem witness_StepKeepsTheInvariant :
    (ready .enc [.regWrite 0x00 64 4]).Inv Config.params ∧ ∃ t, step (ready .enc [.regWrite 0x00 64 4]) = .next t :=
  ⟨ready_inv .enc _, _, (step_access rfl).trans ((perform_cmd _ _ _).trans ((runWord_ok rfl _).trans (exec_eq .transform _)))⟩

theorem witness_ChainIsUnobservableBeforeConstruction :
    (ready .none [.regWrite 0x00 64 4]).mode = .none := rfl

/-! #### The host's side -/

/-- The first register, MODE, the last register, and the first offset past them. -/
theorem witness_RegisterReadsAnswerTheirRegister :
    let s := ready .enc [.regRead 0x18 64]
    let rows : List (Nat × Word) := [(0x00, 0), (0x08, s.status), (0x10, s.result),
      (0x18, match s.mode with | .none => 0 | .enc => 1 | .dec => 2), (0x20, s.blocks), (0x28, s.op0), (0x30, s.op1),
      (0x38, s.op2), (0x40, s.op3), (0x48, s.op4), (0x50, s.op5)]
    s.bus = .regRead 0x18 64 :: [] ∧ (0x00, 0) ∈ rows ∧ (0x18, 1) ∈ rows ∧ (0x50, s.op5) ∈ rows ∧ 0x58 ≤ 0x58 ∧
      0x58 % 8 = 0 := by
  refine ⟨rfl, by simp, ?_, by simp, by decide, by decide⟩
  simp [ready, given]

theorem witness_RegisterWritesReachOnlyOperands :
    (ready .enc [.regWrite 0x50 64 9]).bus = .regWrite 0x50 64 9 :: [] ∧ 0x20 ∈ [0x08, 0x10, 0x18, 0x20] ∧
      0x58 ≤ 0x58 ∧ 0x58 % 8 = 0 := ⟨rfl, by decide, by decide, by decide⟩

theorem witness_OtherRegisterAccessesAreRefused :
    (32 ≠ 64 ∧ (ready .enc [.regRead 0x08 32]).bus = .regRead 0x08 32 :: []) ∧
      0x04 % 8 ≠ 0 ∧ (ready .enc [.regWrite 0x04 64 0]).bus = .regWrite 0x04 64 0 :: [] :=
  ⟨⟨by decide, rfl⟩, by decide, rfl⟩

/-- The top byte written, and the byte below it read. -/
theorem witness_HostMemoryWritesReadBack :
    let v : Bytes := [0xAB]
    let s := ready .none [.memWrite (2 ^ 64 - 1) v, .memRead (2 ^ 64 - 1) v.length, .memRead (2 ^ 64 - 2) 1]
    s.mem.wf ∧ 2 ^ 64 - 1 + v.length ≤ 2 ^ 64 ∧ 2 ^ 64 - 2 + 1 ≤ 2 ^ 64 ∧ 2 ^ 64 - 2 + 1 ≤ 2 ^ 64 - 1 ∧
      s.bus = .memWrite (2 ^ 64 - 1) v :: .memRead (2 ^ 64 - 1) v.length :: .memRead (2 ^ 64 - 2) 1 :: [] :=
  ⟨given_mem .., by decide, by decide, by decide, rfl⟩

/-- Operands at the largest value. -/
theorem witness_CommandLinesRunTheirCommand :
    (Line.encInit (2 ^ 64 - 1) 8).wf = true ∧ lineCommand (.encInit (2 ^ 64 - 1) 8) = some .encInit ∧
      (ready .none (expand (.encInit (2 ^ 64 - 1) 8))).bus = expand (.encInit (2 ^ 64 - 1) 8) ++ [] :=
  ⟨by decide, rfl, rfl⟩

/-! #### Open values and other agents -/

/-- ROT4 with the alias check off. -/
def rot4Unchecked : Params := { rot4 with aliasCheck := false }

theorem rot4_lawful : rot4Unchecked.Lawful where
  blockSize_pos := by decide
  iv_fits := by decide
  enc_length x h := by simp only [rot4Unchecked, rot4] at h ⊢; simp; omega
  dec_length x h := by simp only [rot4Unchecked, rot4] at h ⊢; simp; omega
  dec_enc x h := by
    match x, h with
    | [a, b, c, d], _ => simp [rot4Unchecked, rot4]

/-- 3.5.22: dst one byte above src. -/
theorem witness_UncheckedOverlapStaysInsideDst :
    let s := vector .transform .enc 0x2001 8 0x2000 8 0x1000 8
    rot4Unchecked.Lawful ∧ rot4Unchecked.aliasCheck = false ∧ s.Inv rot4Unchecked ∧ srcLen s ≠ 0 ∧
      srcLen s % rot4Unchecked.blockSize = 0 ∧ srcLen s ≤ dstLen s ∧ srcAddr s + srcLen s ≤ 2 ^ 64 ∧
      dstAddr s + dstLen s ≤ 2 ^ 64 ∧ dstAddr s ≠ srcAddr s ∧ dstAddr s < srcAddr s + srcLen s ∧
      srcAddr s < dstAddr s + srcLen s ∧ s.mode ≠ .none ∧ GoodIv rot4Unchecked (onceIvAddr s) (onceIvLen s) :=
  ⟨rot4_lawful, rfl, ⟨⟨by decide, by decide, by decide, by decide, by decide, by decide, by decide⟩, by decide⟩,
    by decide, by decide, by decide, by decide, by decide, by decide, by decide, by decide, by decide,
    ⟨by decide, by decide⟩⟩

theorem covers_one (s n a : Nat) : covers [⟨s, n⟩] a = true ↔ s ≤ a ∧ a < s + n := by simp [covers_iff]

theorem covers_one_false (s n a : Nat) : covers [⟨s, n⟩] a = false ↔ a < s ∨ s + n ≤ a := by
  rw [← Bool.not_eq_true, covers_one]
  omega

/-- The footprint of TRANSFORM on `ready`: src at `B`, dst at 0. -/
theorem ready_footprint (bus : List Access) : footprint Config.params .transform (ready .enc bus) =
    { reads := [⟨Config.blockSize, Config.blockSize⟩], writes := [⟨0, Config.blockSize⟩] } := by
  have h := Config.iv_fits
  have e0 : dstAddr (ready .enc bus) = 0 := toNat_reg (by omega)
  have e2 : srcAddr (ready .enc bus) = Config.blockSize := toNat_reg (by omega)
  have e3 : srcLen (ready .enc bus) = Config.blockSize := ready_srcLen .enc _
  rw [footprint, ready_transform (by decide), e0, e2, e3]
  rfl

/-- Another agent at the top byte, which no good buffer of one block below `2*B` reaches. -/
theorem witness_UndisturbedCommandRunsAsAlone :
    let f : Foreign := { reads := [⟨2 ^ 64 - 1, 1⟩], writes := [⟨2 ^ 64 - 1, 1⟩] }
    let s := ready .enc [.racedCommand 4 f]
    s.bus = .racedCommand 4 f :: [] ∧ ∀ i a, decode 4 = .ok i →
      (covers (footprint Config.params i s).reads a = true → covers f.writes a = false) ∧
        (covers (footprint Config.params i s).writes a = true → covers f.reads a = false ∧ covers f.writes a = false) := by
  intro f s
  refine ⟨rfl, fun i a hi => ?_⟩
  have hi : i = .transform := (Except.ok.inj ((rfl : decode 4 = .ok .transform).symm.trans hi)).symm
  subst hi
  have hf : footprint Config.params .transform s = _ := ready_footprint _
  have h := Config.iv_fits
  rw [hf]
  simp only [covers_one, covers_one_false, f]
  omega

/-- A raced CMD write of a command's word, and the plain write of it, both answer a next state. -/
theorem raced_next {w : Word} {i : Instr} (hi : decode w = .ok i) (f : Foreign) :
    (∃ t, step (ready .enc [.racedCommand w f]) = .next t) ∧
      ∃ v, step { ready .enc [.racedCommand w f] with bus := [.regWrite 0x00 64 w] } = .next v := by
  constructor
  · rw [step_access (s := ready .enc [.racedCommand w f]) rfl]
    exact ⟨_, (runWord_ok (run := racedRun Config.params exec f) hi _).trans (racedRun_exec f i _)⟩
  · exact ⟨_, (step_access rfl).trans ((perform_cmd (w := w) ..).trans ((runWord_ok hi _).trans (exec_eq i _)))⟩

/-- Another agent that writes the first src byte of TRANSFORM, or of ENC_ONCE; and one that only reads the first dst
byte, which TRANSFORM does not read: the overlap is that byte. -/
theorem witness_RaceOpensOnlyTheOverlap :
    (∀ w i, (w = 4 ∧ i = .transform) ∨ (w = 5 ∧ i = .encOnce) →
      let f : Foreign := { reads := [], writes := [⟨Config.blockSize, 1⟩] }
      let s := ready .enc [.racedCommand w f]
      s.Inv Config.params ∧ decode w = .ok i ∧ s.bus = .racedCommand w f :: [] ∧ (∃ t, step s = .next t) ∧
        ∃ v, step { s with bus := [.regWrite 0x00 64 w] } = .next v) ∧
      let f : Foreign := { reads := [⟨0, 1⟩], writes := [] }
      let s := ready .enc [.racedCommand 4 f]
      s.Inv Config.params ∧ decode 4 = .ok .transform ∧ s.bus = .racedCommand 4 f :: [] ∧ (∃ t, step s = .next t) ∧
        (∃ v, step { s with bus := [.regWrite 0x00 64 4] } = .next v) ∧
        overlaps (footprint Config.params .transform s) f 0 = true ∧
        ∀ a, overlaps (footprint Config.params .transform s) f a = true →
          covers (footprint Config.params .transform s).reads a = false := by
  have hB := Config.blockSize_pos
  refine ⟨?_, ?_⟩
  · rintro w i (⟨rfl, rfl⟩ | ⟨rfl, rfl⟩) f s
    · exact ⟨ready_inv .enc _, rfl, rfl, raced_next rfl f⟩
    · exact ⟨ready_inv .enc _, rfl, rfl, raced_next rfl f⟩
  · intro f s
    have h := raced_next (w := 4) (i := .transform) rfl f
    refine ⟨ready_inv .enc _, rfl, rfl, h.1, h.2, ?_⟩
    simp only [s, ready_footprint, overlaps_iff, covers_one, covers_one_false, f]
    constructor
    · omega
    · intro a ha
      simp only [covers, List.any_nil, Bool.false_eq_true, or_false, and_false] at ha
      omega

/-- Two engines over one memory, each with one block in place: `[0, B)` and `[B, 2*B)`. -/
def twoEngines : System where
  engines := [(given .enc 0 Config.blockSize 0 Config.blockSize 0 0 []).toEngine,
    (given .dec Config.blockSize Config.blockSize Config.blockSize Config.blockSize 0 0 []).toEngine]
  mem := [(0, 1)]
  free := 4
  bus := []
  answers := []

theorem twoEngines_footprints :
    twoEngines.footprintOf 0 4 = { reads := [⟨0, Config.blockSize⟩], writes := [⟨0, Config.blockSize⟩] } ∧
      twoEngines.footprintOf 1 4 =
        { reads := [⟨Config.blockSize, Config.blockSize⟩], writes := [⟨Config.blockSize, Config.blockSize⟩] } := by
  have h := Config.iv_fits
  have hB := Config.blockSize_pos
  have key : ∀ (m : Mode) (a : Nat), m ≠ .none → a + Config.blockSize ≤ 2 ^ 64 → a < 2 ^ 64 → ∀ s : State,
      s.toEngine = (given m a Config.blockSize a Config.blockSize 0 0 []).toEngine →
      footprint Config.params .transform s = { reads := [⟨a, Config.blockSize⟩], writes := [⟨a, Config.blockSize⟩] } := by
    intro m a hm ha ha' s hs
    obtain ⟨e0, e1, e2, e3⟩ := given_operands m (a := a) (b := Config.blockSize) (c := a) (d := Config.blockSize) 0 0 []
      ha' (by omega) ha' (by omega)
    have g := given_buffers m (a := a) (b := Config.blockSize) (c := a) (d := Config.blockSize) 0 0 [] hB (Nat.mod_self _)
      le_rfl ha ha (by omega) (.inl rfl)
    have hn := (commandError_eq_none_iff (P := Config.params) rfl .transform _).mpr ⟨hm, g⟩
    rw [← commandError_congr (s := s) (by rw [hs]) (by rw [hs]) (by rw [hs]) (by rw [hs]) (by rw [hs]) (by rw [hs])
      (by rw [hs])] at hn
    have d0 : dstAddr s = a := by rw [← e0, dstAddr, dstAddr, hs]
    have d2 : srcAddr s = a := by rw [← e2, srcAddr, srcAddr, hs]
    have d3 : srcLen s = Config.blockSize := by rw [← e3, srcLen, srcLen, hs]
    rw [footprint, hn, d0, d2, d3]
    rfl
  exact ⟨key .enc 0 (by decide) (by omega) (by omega) _ rfl,
    key .dec Config.blockSize (by decide) (by omega) (by omega) _ rfl⟩

/-- A CMD write to an engine that is there answers a next system. -/
theorem access_next (y : System) (k : Nat) (w : Word) (h : k < y.engines.length) :
    ∃ z, y.access k (.regWrite 0x00 64 w) = .next z ∧ z.engines.length = y.engines.length := by
  have hv : ∃ s, y.view k = some s := by
    simp [System.view, List.getElem?_eq_getElem h]
  obtain ⟨s, hs⟩ := hv
  have ht : ∃ t, step (s.setBus [.regWrite 0x00 64 w]) = .next t := by
    rw [step_access rfl]
    show ∃ t, runWord exec w _ = .next t
    unfold runWord
    split
    · exact ⟨_, exec_eq ..⟩
    · exact ⟨_, rfl⟩
  obtain ⟨t, ht⟩ := ht
  exact ⟨_, by rw [System.access, hs]; dsimp only; rw [ht], by simp [System.update]⟩

theorem witness_DisjointEnginesCommute :
    (0 : Nat) ≠ 1 ∧ twoEngines.mem.wf ∧ (∀ e ∈ twoEngines.engines, Engine.Inv Config.params e) ∧
      (∀ a, covers (twoEngines.footprintOf 0 4).writes a = true →
        covers (twoEngines.footprintOf 1 4).reads a = false ∧ covers (twoEngines.footprintOf 1 4).writes a = false) ∧
      (∀ a, covers (twoEngines.footprintOf 1 4).writes a = true →
        covers (twoEngines.footprintOf 0 4).reads a = false ∧ covers (twoEngines.footprintOf 0 4).writes a = false) ∧
      ∃ z₁ z₂ z₃ z₄, twoEngines.access 0 (.regWrite 0x00 64 4) = .next z₁ ∧ z₁.access 1 (.regWrite 0x00 64 4) = .next z₂ ∧
        twoEngines.access 1 (.regWrite 0x00 64 4) = .next z₃ ∧ z₃.access 0 (.regWrite 0x00 64 4) = .next z₄ := by
  obtain ⟨z₁, h1, l1⟩ := access_next twoEngines 0 4 (by show 0 < 2; decide)
  obtain ⟨z₂, h2, -⟩ := access_next z₁ 1 4 (by rw [l1]; show 1 < 2; decide)
  obtain ⟨z₃, h3, l3⟩ := access_next twoEngines 1 4 (by show 1 < 2; decide)
  obtain ⟨z₄, h4, -⟩ := access_next z₃ 0 4 (by rw [l3]; show 0 < 2; decide)
  refine ⟨by decide, (by decide : Memory.wf [(0, 1)]), ?_, ?_, ?_, z₁, z₂, z₃, z₄, h1, h2, h3, h4⟩
  · intro e he
    rcases List.mem_cons.mp he with rfl | he
    · exact (given_inv ..).engine
    · rw [List.mem_singleton.mp he]
      exact (given_inv ..).engine
  all_goals
    intro a
    rw [twoEngines_footprints.1, twoEngines_footprints.2]
    simp only [covers_one, covers_one_false]
    omega

theorem witness_EnginesShareOnlyMemory :
    (1 : Nat) ≠ 0 ∧ ∃ z, twoEngines.access 0 (.regWrite 0x00 64 4) = .next z := by
  obtain ⟨z, h, -⟩ := access_next twoEngines 0 4 (by show 0 < 2; decide)
  exact ⟨by decide, z, h⟩

end Sys2Proof.Tests
end

section
/-! PROOFS. The statements on scope: a command completes (00_scope R15, 60_exceptions R148), and the engines of a
system share nothing but memory (00_scope R10, 60_exceptions R152). -/

namespace Sys2Proof.Machine

/-! ### Accesses to one engine of a system -/

/-- What an access to engine `k` can do: that engine steps on its view of the system, and the system takes the result
over. -/
theorem System.access_cases {y z : System} {k : Nat} {a : Access} (h : y.access k a = .next z) :
    ∃ s t, y.view k = some s ∧ Machine.step (s.setBus [a]) = .next t ∧ z = y.update k t := by
  unfold System.access at h
  split at h
  · cases h
  · next s hs =>
    split at h
    · next t ht =>
      cases h
      exact ⟨s, t, hs, ht, rfl⟩
    · cases h
    · cases h

@[simp] theorem System.update_engines_length (y : System) (k : Nat) (t : State) :
    (y.update k t).engines.length = y.engines.length :=
  List.length_set

/-- The result of engine `k` goes to engine `k` alone. -/
theorem System.update_engines_of_ne (y : System) {j k : Nat} (t : State) (hjk : j ≠ k) :
    (y.update k t).engines[j]? = y.engines[j]? :=
  List.getElem?_set_ne hjk.symm

/-! ### The statements -/

/-- Settles O6: `exec` answers `commandWith`, which either takes an error or succeeds. -/
theorem everyCommandCompletes : Obligations.EveryCommandCompletes := by
  intro i s
  refine ⟨commandWith Config.params i s, exec_eq i s, ?_⟩
  rcases command_cases (P := Config.params) i s with ⟨e, -, h⟩ | ⟨-, h⟩ <;> rw [h]
  · right
    rw [raise_status, codeField_statusError, raise_eq]
  · left
    rw [succeed_status, codeField_statusOk]

/-- Settles O48: the system behind an access is an update of the accessed engine. -/
theorem enginesShareOnlyMemory : Obligations.EnginesShareOnlyMemory := by
  intro y z k j a h hjk
  obtain ⟨s, t, -, -, rfl⟩ := System.access_cases h
  exact ⟨y.update_engines_of_ne t hjk, y.update_engines_length k t⟩

end Sys2Proof.Machine
end

section
/-! PROOFS. The statements on the state (10_state): what each register is changed by, what the host's register accesses
do, and the invariant that every step keeps. -/

namespace Sys2Proof.Machine

variable {P : Params}

/-! ### Accesses to the register block -/

/-- The defined register accesses (R32). -/
theorem accessDefined_iff (offset width : Nat) : accessDefined offset width = true ↔ width = 64 ∧ offset % 8 = 0 := by
  simp [accessDefined]

/-- From 0x58 on the block holds no register (R32). -/
theorem regAt_past_block {offset : Nat} (h : 0x58 ≤ offset) : regAt offset = none := by
  unfold regAt
  split
  any_goals omega
  rfl

/-- Every register stands at a multiple of 8 (R31). -/
theorem regOffset_mod (r : Reg) : regOffset r % 8 = 0 := by cases r <;> rfl

/-- A defined read answers what stands at its offset (R31). -/
theorem readAccess_defined {offset : Nat} (h : offset % 8 = 0) (s : State) :
    readAccess offset 64 s = .next (s.answer (.reg (readAt s offset))) :=
  if_pos ((accessDefined_iff ..).mpr ⟨rfl, h⟩)

theorem readAt_regOffset (s : State) (r : Reg) : readAt s (regOffset r) = readReg s r := by
  rw [readAt, regAt_regOffset]

theorem readAt_past_block (s : State) {offset : Nat} (h : 0x58 ≤ offset) : readAt s offset = 0 := by
  rw [readAt, regAt_past_block h]

/-- A 64-bit write of a register other than CMD (R24, R31). -/
theorem writeAccess_reg (run : Instr → State → Host.Outcome State Fault Refusal) {r : Reg} (hr : r ≠ .cmd) (w : Word)
    (s : State) : writeAccess run (regOffset r) 64 w s = .next (writeReg s r w) := by
  rw [writeAccess, if_pos ((accessDefined_iff ..).mpr ⟨rfl, regOffset_mod r⟩), regAt_regOffset]
  cases r
  case cmd => exact absurd rfl hr
  all_goals rfl

/-- A defined write past the block is ignored (R32). -/
theorem writeAccess_past_block (run : Instr → State → Host.Outcome State Fault Refusal) {offset : Nat}
    (h : 0x58 ≤ offset) (h8 : offset % 8 = 0) (w : Word) (s : State) : writeAccess run offset 64 w s = .next s := by
  rw [writeAccess, if_pos ((accessDefined_iff ..).mpr ⟨rfl, h8⟩), regAt_past_block h]

/-- A step over a 64-bit write of a register other than CMD (R24, R31). -/
theorem step_writeReg {s : State} {r : Reg} {w : Word} {rest : List Access} (hr : r ≠ .cmd)
    (h : s.bus = .regWrite (regOffset r) 64 w :: rest) : step s = .next (writeReg (s.setBus rest) r w) :=
  (step_access h).trans (writeAccess_reg exec hr w _)

/-! ### What a step can do to the chain context -/

/-- What a raced command answers: the command where nothing overlaps, else the opening of the overlap after the command
on its raced reads (R53). -/
theorem racedRun_cases {f : Foreign} {i : Instr} {s t : State} (h : racedRun Config.params exec f i s = .next t) :
    t = commandWith Config.params i s ∨
      t = afterRace Config.params i (racedReads (footprint Config.params i s) f)
        (racedWrites (footprint Config.params i s) f)
        (racedCommandWith Config.params i (racedReads (footprint Config.params i s) f)
          (racedStart s (racedReads (footprint Config.params i s) f))) := by
  rw [racedRun_exec] at h
  injection h with h
  split at h
  · exact .inl h.symm
  · exact .inr h.symm

/-- MODE and STATUS after a raced command are those of the command on a state with the same MODE: a race reaches
neither (R53). -/
theorem racedRun_chain {f : Foreign} {i : Instr} {s t : State} (h : racedRun Config.params exec f i s = .next t) :
    ∃ u : State, u.mode = s.mode ∧ t.mode = (commandWith Config.params i u).mode ∧
      t.status = (commandWith Config.params i u).status := by
  rcases racedRun_cases h with rfl | rfl
  · exact ⟨s, rfl, rfl, rfl⟩
  · refine ⟨racedStart s (racedReads (footprint Config.params i s) f), rfl, ?_, ?_⟩
    · rw [afterRace_mode, racedCommandWith_frame]
    · rw [afterRace_status, racedCommandWith_frame]

/-- The CMD writes of a word, plain or raced (R25, R53). -/
def WritesCommand (a : Access) (w : Word) : Prop := a = .regWrite 0x00 64 w ∨ ∃ f, a = .racedCommand w f

/-- An access leaves MODE and BLOCKS alone, or is a power-on reset, or is a CMD write of some command's word, and then
MODE and STATUS are as that command leaves them from the same MODE (R22, R23, R25, R53). -/
theorem perform_chain_cases {a : Access} {s t : State} (h : perform Config.params exec a s = .next t) :
    (t.mode = s.mode ∧ t.blocks = s.blocks) ∨ (a = .powerOn ∧ t = powerOn Config.params s) ∨
      ∃ w i, WritesCommand a w ∧ decode w = .ok i ∧ ∃ u : State, u.mode = s.mode ∧
        t.mode = (commandWith Config.params i u).mode ∧ t.status = (commandWith Config.params i u).status := by
  cases a with
  | regWrite offset width w =>
    simp only [perform, writeAccess] at h
    split at h
    · next hd =>
      obtain ⟨rfl, -⟩ := (accessDefined_iff ..).mp hd
      split at h
      · next hr =>
        obtain rfl := (regAt_eq_cmd_iff offset).mp hr
        cases hw : decode w with
        | ok i =>
          rw [runWord_ok hw, exec_eq] at h
          cases h
          exact .inr (.inr ⟨w, i, .inl rfl, hw, s, rfl, rfl, rfl⟩)
        | error r =>
          rw [runWord_error hw] at h
          cases h
          exact .inl ⟨rfl, rfl⟩
      · cases h
        exact .inl ⟨writeReg_mode .., writeReg_blocks ..⟩
      · cases h
        exact .inl ⟨rfl, rfl⟩
    · cases h
  | racedCommand w f =>
    change runWord (racedRun Config.params exec f) w s = .next t at h
    cases hw : decode w with
    | ok i =>
      rw [runWord_ok hw] at h
      exact .inr (.inr ⟨w, i, .inr ⟨f, rfl⟩, hw, racedRun_chain h⟩)
    | error r =>
      rw [runWord_error hw] at h
      cases h
      exact .inl ⟨rfl, rfl⟩
  | powerOn =>
    cases h
    exact .inr (.inl ⟨rfl, rfl⟩)
  | regRead offset width =>
    simp only [perform, readAccess] at h
    split at h <;> cases h
    exact .inl ⟨rfl, rfl⟩
  | memWrite x v =>
    simp only [perform, writeMemory] at h
    split at h <;> cases h
    exact .inl ⟨rfl, rfl⟩
  | memRead x n =>
    simp only [perform, readMemory] at h
    split at h <;> cases h
    exact .inl ⟨rfl, rfl⟩

/-- `perform_chain_cases` for a step, which performs the next access or is idle. -/
theorem step_chain_cases {s t : State} (h : step s = .next t) :
    (t.mode = s.mode ∧ t.blocks = s.blocks) ∨ ∃ a rest, s.bus = a :: rest ∧
      ((a = .powerOn ∧ t.mode = .none) ∨
        ∃ w i, WritesCommand a w ∧ decode w = .ok i ∧ ∃ u : State, u.mode = s.mode ∧
          t.mode = (commandWith Config.params i u).mode ∧ t.status = (commandWith Config.params i u).status) := by
  cases hb : s.bus with
  | nil =>
    rw [step_idle hb] at h
    cases h
    exact .inl ⟨rfl, rfl⟩
  | cons a rest =>
    rw [step_access hb] at h
    rcases perform_chain_cases h with hk | ⟨ha, rfl⟩ | hc
    · exact .inl hk
    · exact .inr ⟨a, rest, rfl, .inl ⟨ha, rfl⟩⟩
    · exact .inr ⟨a, rest, rfl, .inr hc⟩

/-! ### The invariant -/

theorem State.Inv.setBus {s : State} (h : s.Inv P) (b : List Access) : (s.setBus b).Inv P := ⟨h.engine, h.mem_wf⟩

theorem State.Inv.answer {s : State} (h : s.Inv P) (x : Answer) : (s.answer x).Inv P := ⟨h.engine, h.mem_wf⟩

theorem State.Inv.setMem {s : State} (h : s.Inv P) {m : Memory} (hm : m.wf) : (s.setMem m).Inv P := ⟨h.engine, hm⟩

theorem State.Inv.setFree {s : State} (h : s.Inv P) (k : Nat) : (s.setFree k).Inv P := ⟨h.engine, h.mem_wf⟩

/-- The host's register writes reach the operand registers only, of which the invariant says nothing (R24). -/
theorem writeReg_inv {s : State} (h : s.Inv P) (r : Reg) (w : Word) : (writeReg s r w).Inv P := by
  obtain ⟨⟨hc, hp, hr, hl, he, hres, hn⟩, hm⟩ := h
  cases r <;> exact ⟨⟨hc, hp, hr, hl, he, hres, hn⟩, hm⟩

/-- A raced command keeps the invariant: what it reads and writes lies below `2^64` (R45, R53). -/
theorem racedRun_inv {f : Foreign} {i : Instr} {s t : State} (h : s.Inv Config.params)
    (ht : racedRun Config.params exec f i s = .next t) : t.Inv Config.params := by
  rcases racedRun_cases ht with rfl | rfl
  · exact command_inv Config.params_lawful i h
  · have hreads := racedReads_below (P := Config.params) i s f
    refine afterRace_inv i _ _ (racedCommandWith_inv Config.params_lawful i _ ?_) fun a ha => ?_
    · exact (h.setMem (scramble_wf s.mem h.mem_wf s.free _ hreads)).setFree _
    · rcases List.mem_append.mp ha with ha | ha
      · exact hreads a ha
      · exact racedWrites_below i s f a ha

/-- Every access of the host or the platform keeps the invariant. -/
theorem perform_inv {a : Access} {s t : State} (h : s.Inv Config.params)
    (ht : perform Config.params exec a s = .next t) : t.Inv Config.params := by
  rcases perform_cases ht with
    ⟨i, rfl⟩ | rfl | ⟨r, w, rfl⟩ | rfl | ⟨x, rfl⟩ | ⟨x, v, -, hv, rfl⟩ | ⟨i, f, hr⟩ | ⟨-, rfl⟩
  · exact command_inv Config.params_lawful i h
  · exact raise_inv h _
  · exact writeReg_inv h r w
  · exact h
  · exact h.answer x
  · exact h.setMem (Memory.writeBytes_wf s.mem h.mem_wf v x hv)
  · exact racedRun_inv h hr.symm
  · exact powerOn_inv s h.mem_wf

/-! ### Commands and BLOCKS -/

/-- BLOCKS after a command that succeeds (R23). -/
theorem command_blocks {i : Instr} {s : State} (h : commandError P i s = none) :
    (commandWith P i s).blocks =
      match i with
      | .encInit | .decInit => 0
      | .transform => s.blocks + BitVec.ofNat 64 (srcLen s / P.blockSize)
      | .blocksize | .encOnce | .decOnce => s.blocks := by
  rw [command_success h]
  cases i <;> rfl

/-- A command reads BLOCKS to advance it and for nothing else (R23). -/
theorem command_withBlocks (i : Instr) (s : State) (n : Word) :
    ∃ m, commandWith P i { s with blocks := n } = { commandWith P i s with blocks := m } := by
  have he : commandError P i { s with blocks := n } = commandError P i s :=
    commandError_congr rfl rfl rfl rfl rfl rfl rfl
  refine ⟨(commandWith P i { s with blocks := n }).blocks, ?_⟩
  cases h : commandError P i s with
  | some e => rw [command_error (he.trans h), command_error h]; rfl
  | none =>
    rw [command_success (he.trans h), command_success h]
    cases i <;> rfl

/-! ### Steps in MODE NONE do not reveal the accumulators -/

/-- PREV_C and PREV_P written, nothing else (R21). -/
def State.setPrev (s : State) (c p : Bytes) : State := { s with prevC := c, prevP := p }

/-- `t'` shows no trace of the accumulators `c` and `p`: it is `t`, or there is no chain yet and it is `t` but for
them (R30). -/
def HidesPrev (c p : Bytes) (t t' : State) : Prop := t' = t ∨ (t.mode = .none ∧ t' = t.setPrev c p)

/-- `HidesPrev` for outcomes: a stop is the same stop (R30). -/
def OutcomeHidesPrev (c p : Bytes) (o o' : Host.Outcome State Fault Refusal) : Prop :=
  match o with
  | .next t => ∃ t', o' = .next t' ∧ HidesPrev c p t t'
  | .fault r => o' = .fault r
  | .refused r => o' = .refused r

section
variable {s : State} (c p : Bytes)

/-- The checks of a command do not read the accumulators (R144). -/
theorem commandError_setPrev (i : Instr) (s : State) : commandError P i (s.setPrev c p) = commandError P i s :=
  commandError_congr rfl rfl rfl rfl rfl rfl rfl

/-- The memory a command touches does not depend on the accumulators (R41). -/
theorem footprint_setPrev (i : Instr) (s : State) : footprint P i (s.setPrev c p) = footprint P i s := by
  simp only [footprint, commandError_setPrev]
  rfl

theorem writeReg_setPrev (r : Reg) (w : Word) (s : State) :
    writeReg (s.setPrev c p) r w = (writeReg s r w).setPrev c p := by
  cases r <;> rfl

/-- No register offset reads the accumulators (R30, R31). -/
theorem readAt_setPrev (offset : Nat) (s : State) : readAt (s.setPrev c p) offset = readAt s offset := by
  unfold readAt
  split
  · next r _ => cases r <;> rfl
  · rfl

variable {c p}

theorem OutcomeHidesPrev.of_setPrev {t : State} (h : t.mode = .none) :
    OutcomeHidesPrev c p (.next t) (.next (t.setPrev c p)) :=
  ⟨_, rfl, .inr ⟨h, rfl⟩⟩

/-- With no chain, a construction overwrites the accumulators, TRANSFORM fails and the other commands do not read
them, raced or not (R30, R88, R111, R132). -/
theorem racedCommandWith_hidesPrev (hm : s.mode = .none) (i : Instr) (raced : List Nat) :
    HidesPrev c p (racedCommandWith P i raced s) (racedCommandWith P i raced (s.setPrev c p)) := by
  have he := commandError_setPrev (P := P) c p i s
  cases h : commandError P i s with
  | some e =>
    rw [racedCommandWith_error h, racedCommandWith_error (he.trans h)]
    exact .inr ⟨hm, rfl⟩
  | none =>
    rw [racedCommandWith_success h, racedCommandWith_success (he.trans h)]
    cases i with
    | encInit => exact .inl rfl
    | decInit => exact .inl rfl
    | blocksize => exact .inr ⟨hm, rfl⟩
    | transform => simp [commandError, transformError, hm] at h
    | encOnce => exact .inr ⟨hm, rfl⟩
    | decOnce => exact .inr ⟨hm, rfl⟩

theorem command_hidesPrev (hm : s.mode = .none) (i : Instr) :
    HidesPrev c p (commandWith P i s) (commandWith P i (s.setPrev c p)) := by
  simpa using racedCommandWith_hidesPrev (P := P) (c := c) (p := p) hm i []

/-- The opening of a race overwrites the accumulators or leaves them alone (R53). -/
theorem afterRace_hidesPrev {t t' : State} (h : HidesPrev c p t t') (i : Instr) (reads writes : List Nat) :
    HidesPrev c p (afterRace P i reads writes t) (afterRace P i reads writes t') := by
  rcases h with rfl | ⟨hm, rfl⟩
  · exact .inl rfl
  · unfold afterRace
    dsimp only
    split
    · exact .inl rfl
    · exact .inr ⟨hm, rfl⟩

theorem racedRun_hidesPrev (hm : s.mode = .none) (f : Foreign) (i : Instr) :
    OutcomeHidesPrev c p (racedRun Config.params exec f i s) (racedRun Config.params exec f i (s.setPrev c p)) := by
  rw [racedRun_exec, racedRun_exec, footprint_setPrev]
  refine ⟨_, rfl, ?_⟩
  split
  · exact command_hidesPrev hm i
  · exact afterRace_hidesPrev
      (racedCommandWith_hidesPrev (s := racedStart s (racedReads (footprint Config.params i s) f)) hm i _) i _ _

/-- A CMD word hides the accumulators if its command does; an illegal word does (R141). -/
theorem runWord_hidesPrev {run : Instr → State → Host.Outcome State Fault Refusal} (hm : s.mode = .none)
    (hrun : ∀ i, OutcomeHidesPrev c p (run i s) (run i (s.setPrev c p))) (w : Word) :
    OutcomeHidesPrev c p (runWord run w s) (runWord run w (s.setPrev c p)) := by
  cases h : decode w with
  | ok i =>
    rw [runWord_ok h, runWord_ok h]
    exact hrun i
  | error r =>
    rw [runWord_error h, runWord_error h]
    exact .of_setPrev hm

/-- No access of the host or the platform reveals the accumulators before a construction (R30, R34). -/
theorem perform_hidesPrev (hm : s.mode = .none) (a : Access) :
    OutcomeHidesPrev c p (perform Config.params exec a s) (perform Config.params exec a (s.setPrev c p)) := by
  cases a with
  | regWrite offset width w =>
    have hexec : ∀ i, OutcomeHidesPrev c p (exec i s) (exec i (s.setPrev c p)) := fun i => by
      rw [exec_eq, exec_eq]
      exact ⟨_, rfl, command_hidesPrev hm i⟩
    simp only [perform, writeAccess]
    split
    · split
      · exact runWord_hidesPrev hm hexec w
      · rw [writeReg_setPrev]
        exact .of_setPrev ((writeReg_mode ..).trans hm)
      · exact .of_setPrev hm
    · rfl
  | regRead offset width =>
    simp only [perform, readAccess, readAt_setPrev]
    split
    · exact .of_setPrev (t := s.answer _) hm
    · rfl
  | memWrite x v =>
    simp only [perform, writeMemory]
    split
    · exact .of_setPrev (t := s.setMem _) hm
    · rfl
  | memRead x n =>
    simp only [perform, readMemory]
    split
    · exact .of_setPrev (t := s.answer _) hm
    · rfl
  | racedCommand w f => exact runWord_hidesPrev hm (racedRun_hidesPrev hm f) w
  | powerOn => exact ⟨_, rfl, .inl rfl⟩

theorem step_hidesPrev (hm : s.mode = .none) : OutcomeHidesPrev c p (step s) (step (s.setPrev c p)) := by
  cases hb : s.bus with
  | nil =>
    rw [step_idle hb, step_idle (s := s.setPrev c p) hb]
    exact .of_setPrev hm
  | cons a rest =>
    rw [step_access hb, step_access (s := s.setPrev c p) hb]
    exact perform_hidesPrev (s := s.setBus rest) hm a

end

/-! ### The statements -/

/-- Settles O36: a step is idle or performs one access, and every access keeps the invariant. -/
theorem stepKeepsTheInvariant : Obligations.StepKeepsTheInvariant := by
  intro s t h ht
  cases hb : s.bus with
  | nil =>
    rw [step_idle hb] at ht
    cases ht
    exact h
  | cons a rest =>
    rw [step_access hb] at ht
    exact perform_inv (h.setBus rest) ht

/-- Settles O29: only a power-on reset and a CMD write reach MODE, and a command that changes it is a construction. -/
theorem onlyConstructionAndResetWriteMode : Obligations.OnlyConstructionAndResetWriteMode := by
  intro s t h hne
  rcases step_chain_cases h with ⟨hm, -⟩ | ⟨a, rest, hb, ⟨rfl, hm⟩ | ⟨w, i, ha, hw, u, hu, hm, hs⟩⟩
  · exact absurd hm hne
  · exact .inl ⟨rest, hb, hm⟩
  · have hbus : s.bus = .regWrite 0x00 64 w :: rest ∨ ∃ f, s.bus = .racedCommand w f :: rest := by
      rcases ha with rfl | ⟨f, rfl⟩
      · exact .inl hb
      · exact .inr ⟨f, hb⟩
    obtain ⟨hok, hi⟩ := command_mode (P := Config.params) i u (by rwa [← hm, hu])
    refine .inr ⟨w, rest, hbus, by rwa [hs], ?_⟩
    rcases hi with ⟨rfl, he⟩ | ⟨rfl, hd⟩
    · exact .inl ⟨hw, hm.trans he⟩
    · exact .inr ⟨hw, hm.trans hd⟩

/-- Settles O31: BLOCKS after a command by its end, the accesses that reach it, and what a command reads it for. -/
theorem blocksCountsThePersistentChain : Obligations.BlocksCountsThePersistentChain := by
  refine ⟨fun i s t h => ?_, fun s t h hne => ?_, fun i s t n h => ?_⟩
  · obtain ⟨rfl, -⟩ := exec_next h
    cases he : commandError Config.params i s with
    | some e =>
      rw [if_pos (by rw [ne_eq, command_ok_iff, he]; simp), command_error he]
      rfl
    | none =>
      rw [if_neg (by rw [ne_eq, command_ok_iff, he]; simp), command_blocks he]
      cases i
      case transform => simp
      all_goals rfl
  · rcases step_chain_cases h with ⟨-, hk⟩ | ⟨a, rest, hb, ⟨rfl, -⟩ | ⟨w, i, rfl | ⟨f, rfl⟩, -⟩⟩
    · exact absurd hk hne
    · exact ⟨rest, .inl hb⟩
    · exact ⟨rest, .inr ⟨w, .inl hb⟩⟩
    · exact ⟨rest, .inr ⟨w, .inr ⟨f, hb⟩⟩⟩
  · obtain ⟨rfl, -⟩ := exec_next h
    obtain ⟨m, hm⟩ := command_withBlocks (P := Config.params) i s n
    exact ⟨m, by rw [exec_eq, hm]⟩

/-- Settles O37: `step_hidesPrev`, outcome by outcome. -/
theorem chainIsUnobservableBeforeConstruction : Obligations.ChainIsUnobservableBeforeConstruction := by
  intro s c p hm
  have h : OutcomeHidesPrev c p (step s) (step { s with prevC := c, prevP := p }) := step_hidesPrev hm
  cases ho : step s with
  | next t =>
    rw [ho] at h
    obtain ⟨t', ht', rfl | ⟨hn, rfl⟩⟩ := h
    · exact .inl ht'
    · exact .inr ⟨hn, ht'⟩
  | fault r =>
    rw [ho] at h
    exact h
  | refused r =>
    rw [ho] at h
    exact h

/-- Settles O4: the access is a CMD write, which runs its decoded word. -/
theorem stepRunsTheDecodedCommand : Obligations.StepRunsTheDecodedCommand := by
  have plain : ∀ (s : State) (w : Word) (i : Instr) (rest : List Access),
      s.bus = .regWrite 0x00 64 w :: rest → decode w = .ok i → step s = exec i { s with bus := rest } :=
    fun s w i rest hb hw => (step_access hb).trans ((perform_cmd exec w _).trans (runWord_ok hw _))
  refine ⟨plain, fun s nbits w i h => ?_⟩
  unfold decodeTableWord at h
  split at h
  · next j hj =>
    cases h
    exact plain (s.withFetchWord nbits w) (tableWord nbits w) i s.bus rfl hj
  · cases h

/-- Settles O30: an error leaves the accumulators, and the effects of BLOCKSIZE and the one-shot commands do. -/
theorem onlyChainCommandsWriteTheAccumulators : Obligations.OnlyChainCommandsWriteTheAccumulators := by
  intro i s t h hne
  obtain ⟨rfl, -⟩ := exec_next h
  cases he : commandError Config.params i s with
  | some e =>
    rw [command_error he] at hne
    rcases hne with h | h <;> exact absurd rfl h
  | none =>
    refine ⟨(command_ok_iff ..).mpr he, ?_⟩
    rw [command_success he] at hne
    cases i
    case encInit => simp
    case decInit => simp
    case transform => simp
    all_goals rcases hne with h | h <;> exact absurd rfl h

/-- Settles O32: the operand registers by `command_operands`, RESULT by the two ends of a command. -/
theorem commandsKeepOperandsAndResult : Obligations.CommandsKeepOperandsAndResult := by
  intro i s t h
  obtain ⟨rfl, -⟩ := exec_next h
  obtain ⟨h0, h1, h2, h3, h4, h5, -, -⟩ := command_operands (P := Config.params) i s
  refine ⟨h0, h1, h2, h3, h4, h5, fun hi => ?_⟩
  rcases command_cases (P := Config.params) i s with ⟨e, -, h⟩ | ⟨-, h⟩ <;> rw [h]
  · rfl
  · cases i
    case blocksize => exact absurd rfl hi
    all_goals rfl

/-- Settles O35: the reset state is what a power-on leaves of a machine with empty memory. -/
theorem resetMeetsTheInvariant : Obligations.ResetMeetsTheInvariant := by
  have h := powerOn_inv (P := Config.params) { State.reset with free := 0 } ⟨.nil, by simp [State.reset]⟩
  rwa [powerOn_reset _ rfl rfl rfl rfl] at h

/-- Settles O38: the offset is a register's own, or past the block. -/
theorem registerReadsAnswerTheirRegister : Obligations.RegisterReadsAnswerTheirRegister := by
  intro s offset value rest hb hv
  have key : offset % 8 = 0 ∧ readAt (s.setBus rest) offset = value := by
    rcases hv with hrow | ⟨hpast, h8, rfl⟩
    · have atReg : ∀ r, readReg (s.setBus rest) r = value → offset = regOffset r →
          offset % 8 = 0 ∧ readAt (s.setBus rest) offset = value := by
        rintro r hr rfl
        exact ⟨regOffset_mod r, (readAt_regOffset ..).trans hr⟩
      simp only [List.mem_cons, Prod.mk.injEq, List.not_mem_nil, or_false] at hrow
      rcases hrow with ⟨ho, rfl⟩ | ⟨ho, rfl⟩ | ⟨ho, rfl⟩ | ⟨ho, rfl⟩ | ⟨ho, rfl⟩ | ⟨ho, rfl⟩ | ⟨ho, rfl⟩ | ⟨ho, rfl⟩ |
        ⟨ho, rfl⟩ | ⟨ho, rfl⟩ | ⟨ho, rfl⟩
      · exact atReg .cmd rfl ho
      · exact atReg .status rfl ho
      · exact atReg .result rfl ho
      · refine atReg .mode ?_ ho
        rw [readReg, State.setBus_mode]
        cases s.mode <;> rfl
      · exact atReg .blocks rfl ho
      · exact atReg .op0 rfl ho
      · exact atReg .op1 rfl ho
      · exact atReg .op2 rfl ho
      · exact atReg .op3 rfl ho
      · exact atReg .op4 rfl ho
      · exact atReg .op5 rfl ho
    · exact ⟨h8, readAt_past_block _ hpast⟩
  obtain ⟨h8, rfl⟩ := key
  exact (step_access hb).trans (readAccess_defined h8 _)

/-- Settles O39: the offset is a register's own, or past the block. -/
theorem registerWritesReachOnlyOperands : Obligations.RegisterWritesReachOnlyOperands := by
  intro s offset w rest hb
  have atReg : ∀ r, r ≠ .cmd → offset = regOffset r → step s = .next (writeReg (s.setBus rest) r w) := by
    rintro r hr rfl
    exact step_writeReg hr hb
  refine ⟨atReg .op0 (by decide), atReg .op1 (by decide), atReg .op2 (by decide), atReg .op3 (by decide),
    atReg .op4 (by decide), atReg .op5 (by decide), ?_⟩
  rintro (hro | ⟨hpast, h8⟩)
  · simp only [List.mem_cons, List.not_mem_nil, or_false] at hro
    rcases hro with ho | ho | ho | ho
    · exact atReg .status (by decide) ho
    · exact atReg .result (by decide) ho
    · exact atReg .mode (by decide) ho
    · exact atReg .blocks (by decide) ho
  · exact (step_access hb).trans (writeAccess_past_block exec hpast h8 w _)

/-- Settles O40: the access is not among the defined ones. -/
theorem otherRegisterAccessesAreRefused : Obligations.OtherRegisterAccessesAreRefused := by
  intro s offset width w rest hbad hb
  have hd : ¬ accessDefined offset width = true := by
    rw [accessDefined_iff]
    omega
  rcases hb with hb | hb
  · exact (step_access hb).trans (if_neg hd)
  · exact (step_access hb).trans (if_neg hd)

end Sys2Proof.Machine
end

section
/-! PROOFS. The statements on memory (20_memory): what the host writes it reads back (R46), a command stores to dst alone
(R41), and what a command has to do with other agents: alone, in a race, and beside another engine (R53). -/

namespace Sys2Proof.Machine

variable {P : Params}

/-! ### The host's accesses to memory -/

/-- A run begins with a step. -/
theorem run_succ {s t : Sys2Proof.core.State} (h : Sys2Proof.core.step s = .next t) (n : Nat) :
    Sys2Proof.core.run (n + 1) s = Sys2Proof.core.run n t := by
  rw [Host.Core.run, h]

/-- A step over a host write inside the address space (R40, R46). -/
theorem step_memWrite {s : State} {a : Nat} {v : Bytes} {rest : List Access} (hb : s.bus = .memWrite a v :: rest)
    (ha : a + v.length ≤ 2 ^ 64) : step s = .next ((s.setBus rest).setMem (s.mem.writeBytes a v)) :=
  (step_access hb).trans (if_pos (decide_eq_true ha))

/-- A step over a host read inside the address space (R40). -/
theorem step_memRead {s : State} {a n : Nat} {rest : List Access} (hb : s.bus = .memRead a n :: rest)
    (ha : a + n ≤ 2 ^ 64) : step s = .next ((s.setBus rest).answer (.mem (s.mem.readBytes a n))) :=
  (step_access hb).trans (if_pos (decide_eq_true ha))

/-! ### The memory a command touches -/

/-- The bytes a command writes: dst of a storing command that succeeds (R41). -/
theorem covers_footprint_writes (i : Instr) (s : State) (a : Nat) :
    covers (footprint P i s).writes a = true ↔
      commandError P i s = none ∧ (i = .transform ∨ i = .encOnce ∨ i = .decOnce) ∧
        dstAddr s ≤ a ∧ a < dstAddr s + srcLen s := by
  cases h : commandError P i s with
  | some e => simp [footprint_error h, covers]
  | none => cases i <;> simp [footprint, h, covers_iff]

/-- What a command touches depends neither on the bytes of memory nor on the count of free values (R41, R145). -/
theorem footprint_setMem (i : Instr) (s : State) (m : Memory) (k : Nat) :
    footprint P i ((s.setMem m).setFree k) = footprint P i s := by
  simp only [footprint, commandError_setMem]
  rfl

/-- A command, raced or not, leaves every byte it does not write (R41, R53). -/
theorem racedCommandWith_read_unwritten (hP : P.Lawful) (i : Instr) (raced : List Nat) {s : State}
    (hs : s.toEngine.Inv P) {a : Nat} (ha : covers (footprint P i s).writes a = false) :
    (racedCommandWith P i raced s).mem.read a = s.mem.read a := by
  cases h : commandError P i s with
  | some e => rw [racedCommandWith_error h]; rfl
  | none =>
    obtain ⟨-, -, hout, -⟩ := racedCommandWith_spec hP i raced hs.prevC_length hs.prevP_length
    refine hout a fun hi => ?_
    rw [← Bool.not_eq_true, covers_footprint_writes] at ha
    by_contra hin
    exact ha ⟨h, hi, by omega⟩

theorem command_read_unwritten (hP : P.Lawful) (i : Instr) {s : State} (hs : s.toEngine.Inv P) {a : Nat}
    (ha : covers (footprint P i s).writes a = false) : (commandWith P i s).mem.read a = s.mem.read a := by
  simpa using racedCommandWith_read_unwritten hP i [] hs ha

/-- With the alias check on, a command leaves the count of free values (R112). -/
theorem command_free (hP : P.aliasCheck = true) (i : Instr) (s : State) : (commandWith P i s).free = s.free :=
  by simpa using congrArg State.free (command_setFree hP i s s.free)

/-! ### A race -/

/-- A race that touches no byte the command writes, and writes none it reads, has no overlap (R53). -/
theorem overlaps_eq_false {fp f : Foreign} {a : Nat}
    (hr : covers fp.reads a = true → covers f.writes a = false)
    (hw : covers fp.writes a = true → covers f.reads a = false ∧ covers f.writes a = false) :
    overlaps fp f a = false := by
  rw [← Bool.not_eq_true, overlaps_iff]
  rintro (⟨h, h' | h'⟩ | ⟨h, h'⟩)
  · simp [(hw h).1] at h'
  · simp [(hw h).2] at h'
  · simp [hr h] at h'

/-- What a race opens of memory lies in the overlap (R53). -/
theorem overlaps_of_mem_raced {fp f : Foreign} {a : Nat} (h : a ∈ racedReads fp f ++ racedWrites fp f) :
    overlaps fp f a = true := by
  rcases List.mem_append.mp h with h | h
  · exact ((mem_racedReads ..).mp h).2
  · exact ((mem_racedWrites ..).mp h).2

/-- Without an overlap a raced command is the command (R53). -/
theorem racedRun_no_overlap {f : Foreign} {i : Instr} {s : State}
    (h : ∀ a, overlaps (footprint Config.params i s) f a = false) :
    racedRun Config.params exec f i s = exec i s := by
  have hr : racedReads (footprint Config.params i s) f = [] := by simp [racedReads, h]
  have hw : racedWrites (footprint Config.params i s) f = [] := by simp [racedWrites, h]
  rw [racedRun_exec, hr, hw, exec_eq]
  rfl

/-- What a command does with memory and the count of free values shows in these and in the accumulators alone. -/
theorem command_setMem_frame (i : Instr) (s : State) (m : Memory) (k : Nat) :
    commandWith P i ((s.setMem m).setFree k) = { commandWith P i s with
      mem := (commandWith P i ((s.setMem m).setFree k)).mem
      prevC := (commandWith P i ((s.setMem m).setFree k)).prevC
      prevP := (commandWith P i ((s.setMem m).setFree k)).prevP
      free := (commandWith P i ((s.setMem m).setFree k)).free } := by
  have he := commandError_setMem (P := P) i s m k
  cases h : commandError P i s with
  | some e => rw [command_error h, command_error (he.trans h)]; rfl
  | none =>
    rw [command_success h, command_success (he.trans h)]
    cases i <;> rfl

/-- A command that does not feed the persistent chain leaves the accumulators, raced or not (R53, R88, R132). -/
theorem racedCommandWith_prev {i : Instr} (hi : feedsChain i = false) (raced : List Nat) (s : State) :
    (racedCommandWith P i raced s).prevC = s.prevC ∧ (racedCommandWith P i raced s).prevP = s.prevP := by
  cases h : commandError P i s with
  | some e => rw [racedCommandWith_error h]; exact ⟨rfl, rfl⟩
  | none =>
    rw [racedCommandWith_success h]
    cases i
    case blocksize => exact ⟨rfl, rfl⟩
    case encOnce => exact ⟨rfl, rfl⟩
    case decOnce => exact ⟨rfl, rfl⟩
    all_goals simp [feedsChain] at hi

/-- A command in a race over the bytes `reads` and `writes` of its own, to its end (R53; `racedRun_cases`). -/
abbrev racedEnd (P : Params) (i : Instr) (reads writes : List Nat) (s : State) : State :=
  afterRace P i reads writes (racedCommandWith P i reads (racedStart s reads))

/-- A race shows in memory, the accumulators and the count of free values alone (R53). -/
theorem racedEnd_frame (i : Instr) (reads writes : List Nat) (s : State) :
    racedEnd P i reads writes s = { commandWith P i s with
      mem := (racedEnd P i reads writes s).mem
      prevC := (racedEnd P i reads writes s).prevC
      prevP := (racedEnd P i reads writes s).prevP
      free := (racedEnd P i reads writes s).free } := by
  rw [racedEnd, afterRace_frame, racedCommandWith_frame, command_setMem_frame]

/-- Memory after a race is that of the command on its raced reads, with the overlap opened (R53). -/
theorem racedEnd_read_outside (i : Instr) {reads writes : List Nat} (s : State) {a : Nat}
    (ha : a ∉ reads ++ writes) :
    (racedEnd P i reads writes s).mem.read a = (racedCommandWith P i reads (racedStart s reads)).mem.read a := by
  rw [racedEnd, afterRace_frame]
  exact scramble_read_outside _ _ _ a ha

/-- A byte in no overlap that the command does not write keeps its value (R53). -/
theorem racedEnd_read_unwritten (hP : P.Lawful) (i : Instr) {reads writes : List Nat} {s : State}
    (hs : s.toEngine.Inv P) {a : Nat} (ha : a ∉ reads ++ writes) (hw : covers (footprint P i s).writes a = false) :
    (racedEnd P i reads writes s).mem.read a = s.mem.read a := by
  rw [racedEnd_read_outside i s ha,
    racedCommandWith_read_unwritten hP i reads (s := racedStart s reads) hs (by rwa [footprint_setMem])]
  exact scramble_read_outside _ _ _ a fun h => ha (List.mem_append_left _ h)

/-- A command that reads no raced byte ends as it does alone, but for the opened overlap (R53). -/
theorem racedEnd_no_reads (hP : P.aliasCheck = true) (i : Instr) (writes : List Nat) (s : State) :
    (racedEnd P i [] writes s).prevC = (commandWith P i s).prevC ∧
      (racedEnd P i [] writes s).prevP = (commandWith P i s).prevP ∧
      ∀ a, a ∉ writes → (racedEnd P i [] writes s).mem.read a = (commandWith P i s).mem.read a := by
  have hstart : racedCommandWith P i [] (racedStart s []) = (commandWith P i s).setFree (s.free + 1) :=
    (racedCommandWith_nil ..).trans (command_setFree hP i s _)
  refine ⟨?_, ?_, fun a ha => ?_⟩
  · simp [racedEnd, hstart, afterRace]
  · simp [racedEnd, hstart, afterRace]
  · rw [racedEnd_read_outside i s (by simpa using ha), hstart]
    rfl

/-- No race reaches the accumulators through a command that does not feed the persistent chain (R53, R132). -/
theorem racedEnd_prev {i : Instr} (hi : feedsChain i = false) (reads writes : List Nat) (s : State) :
    (racedEnd P i reads writes s).prevC = (commandWith P i s).prevC ∧
      (racedEnd P i reads writes s).prevP = (commandWith P i s).prevP := by
  obtain ⟨hc, hp⟩ := racedCommandWith_prev (P := P) hi reads (racedStart s reads)
  obtain ⟨hc', hp'⟩ := racedCommandWith_prev (P := P) hi [] s
  rw [racedCommandWith_nil] at hc' hp'
  constructor
  · simpa [racedEnd, afterRace, hi, hc'] using hc
  · simpa [racedEnd, afterRace, hi, hp'] using hp

/-! ### The statements on one engine -/

/-- Settles O41: a write and two reads, one step each, by the laws of the byte memory. -/
theorem hostMemoryWritesReadBack : Obligations.HostMemoryWritesReadBack := by
  intro s a b n v rest hm ha hb hap hbus
  have run : Sys2Proof.core.run 3 s = .next _ :=
    (run_succ (step_memWrite hbus ha) 2).trans
      ((run_succ (step_memRead rfl ha) 1).trans (run_succ (step_memRead rfl hb) 0))
  refine ⟨_, run, rfl, rfl, ?_⟩
  have same := Memory.readBytes_writeBytes_same s.mem hm v a ha
  have apart := Memory.readBytes_writeBytes_outside s.mem v a b n hap
  simp [same, apart]

/-- Settles O33: each of the four cases lies outside the bytes the command writes. -/
theorem commandsStoreOnlyToDst : Obligations.CommandsStoreOnlyToDst := by
  intro i s t hs h a ha
  obtain ⟨rfl, -⟩ := exec_next h
  refine command_read_unwritten Config.params_lawful i hs.engine ?_
  rw [← Bool.not_eq_true, covers_footprint_writes]
  rintro ⟨hn, hi, hin⟩
  rcases ha with hni | hcode | hout
  · tauto
  · exact hcode ((command_ok_iff ..).mpr hn)
  · omega

/-- Settles O45: an illegal word takes its error either way, and a command meets no overlap. -/
theorem undisturbedCommandRunsAsAlone : Obligations.UndisturbedCommandRunsAsAlone := by
  intro s w f rest hb hf
  rw [step_access hb, step_access (s := { s with bus := .regWrite 0x00 64 w :: rest }) rfl]
  change runWord (racedRun Config.params exec f) w (s.setBus rest) = runWord exec w (s.setBus rest)
  cases hw : decode w with
  | error r => rw [runWord_error hw, runWord_error hw]
  | ok i =>
    rw [runWord_ok hw, runWord_ok hw]
    refine racedRun_no_overlap fun a => ?_
    exact overlaps_eq_false (fp := footprint Config.params i s) (hf i a hw).1 (hf i a hw).2

/-- Settles O46: the race ends as the command does alone, or by `racedEnd`. -/
theorem raceOpensOnlyTheOverlap : Obligations.RaceOpensOnlyTheOverlap := by
  intro s t v w i f rest hs hw hb ht hv fp overlap
  obtain ⟨rfl, -⟩ := exec_next ((stepRunsTheDecodedCommand.1 _ w i rest rfl hw).symm.trans hv)
  rw [step_access hb] at ht
  have hrun := (runWord_ok hw _).symm.trans ht
  have hinv : (s.setBus rest).toEngine.Inv Config.params := hs.engine
  rcases racedRun_cases hrun with rfl | rfl
  · exact ⟨rfl, rfl, rfl, rfl, rfl, rfl, rfl, rfl, rfl, rfl,
      fun a ha _ => command_read_unwritten Config.params_lawful i hinv ha, fun _ => ⟨rfl, rfl, fun _ _ => rfl⟩,
      fun _ => ⟨rfl, rfl⟩⟩
  · have hov : ∀ a, ¬ overlap a → a ∉ racedReads fp f ++ racedWrites fp f := fun a ha hin =>
      ha ((overlaps_iff ..).mp (overlaps_of_mem_raced hin))
    have hreg := racedEnd_frame (P := Config.params) i (racedReads fp f) (racedWrites fp f) (s.setBus rest)
    refine ⟨congrArg (·.status) hreg, congrArg (·.mode) hreg, congrArg (·.blocks) hreg, congrArg (·.result) hreg,
      congrArg (·.op0) hreg, congrArg (·.op1) hreg, congrArg (·.op2) hreg, congrArg (·.op3) hreg,
      congrArg (·.op4) hreg, congrArg (·.op5) hreg, fun a ha hna => ?_, fun hr => ?_, fun hi => ?_⟩
    · exact racedEnd_read_unwritten Config.params_lawful i hinv (hov a hna) ha
    · have hnil : racedReads fp f = [] := List.eq_nil_iff_forall_not_mem.mpr fun a ha => by
        obtain ⟨hread, hover⟩ := (mem_racedReads ..).mp ha
        simp [hr a ((overlaps_iff ..).mp hover)] at hread
      obtain ⟨hc, hp, hmem⟩ := racedEnd_no_reads (P := Config.params) rfl i (racedWrites fp f) (s.setBus rest)
      rw [← hnil] at hc hp hmem
      exact ⟨hc, hp, fun a ha => hmem a fun h => hov a ha (List.mem_append_right _ h)⟩
    · have hfeeds : feedsChain i = false := by rcases hi with rfl | rfl | rfl <;> rfl
      exact racedEnd_prev hfeeds _ _ _


/-! ### Two engines of a system -/

/-- Two memories hold the same bytes in the given ranges (R45). -/
def AgreeOn (rs : List Range) (m m' : Memory) : Prop := ∀ a, covers rs a = true → m.read a = m'.read a

/-- From `s` on any memory, `act` reads and writes no byte but those of `fp`: from memories that agree on what it reads
it leaves one engine and writes one set of bytes. It leaves the other bytes, the canonical form of memory, the count of
free values and the answers (R41). -/
structure ActsWithin (act : State → State) (fp : Foreign) (s : State) : Prop where
  engine : ∀ m : Memory, m.wf → AgreeOn fp.reads m s.mem → (act (s.setMem m)).toEngine = (act s).toEngine
  written : ∀ m : Memory, m.wf → AgreeOn fp.reads m s.mem → AgreeOn fp.writes (act (s.setMem m)).mem (act s).mem
  unwritten : ∀ (m : Memory) (a : Nat), covers fp.writes a = false → (act (s.setMem m)).mem.read a = m.read a
  wf : ∀ m : Memory, m.wf → (act (s.setMem m)).mem.wf
  free : ∀ m : Memory, (act (s.setMem m)).free = s.free
  answers : ∀ m : Memory, (act (s.setMem m)).answers = s.answers

theorem agreeOn_nil (m m' : Memory) : AgreeOn [] m m' := fun a ha => by simp [covers] at ha

theorem agreeOn_cons {r : Range} {rs : List Range} {m m' : Memory} :
    AgreeOn (r :: rs) m m' ↔ AgreeOn [r] m m' ∧ AgreeOn rs m m' := by
  simp [AgreeOn, covers, or_imp, forall_and]

/-- Memories agree on one range exactly when it reads the same (R45). -/
theorem agreeOn_range {a n : Nat} {m m' : Memory} :
    AgreeOn [⟨a, n⟩] m m' ↔ m.readBytes a n = m'.readBytes a n := by
  simp [AgreeOn, covers_iff, Memory.readBytes_eq_iff]

theorem GoodBuffers.setMem {s : State} (h : GoodBuffers P s) (m : Memory) : GoodBuffers P (s.setMem m) :=
  ⟨h.positive, h.aligned, h.size, h.srcRange, h.dstRange, h.apart⟩

/-- The block loop over good buffers depends on its accumulators and the bytes of src (R105, R118). -/
theorem GoodBuffers.chainRun_congr (hP : P.Lawful) {s : State} (hb : GoodBuffers P s) (k : Mode) {l l' : Loop}
    (hc : l.c.length = P.blockSize) (hp : l.p.length = P.blockSize) (hm : l.mem.wf) (hm' : l'.mem.wf)
    (hcc : l.c = l'.c) (hpp : l.p = l'.p) (hsrc : AgreeOn [⟨srcAddr s, srcLen s⟩] l.mem l'.mem) :
    (chainRun P k (dstAddr s) (srcAddr s) (srcLen s / P.blockSize) l).c =
        (chainRun P k (dstAddr s) (srcAddr s) (srcLen s / P.blockSize) l').c ∧
      (chainRun P k (dstAddr s) (srcAddr s) (srcLen s / P.blockSize) l).p =
        (chainRun P k (dstAddr s) (srcAddr s) (srcLen s / P.blockSize) l').p ∧
      AgreeOn [⟨dstAddr s, srcLen s⟩] (chainRun P k (dstAddr s) (srcAddr s) (srcLen s / P.blockSize) l).mem
        (chainRun P k (dstAddr s) (srcAddr s) (srcLen s / P.blockSize) l').mem := by
  rw [agreeOn_range, ← hb.blocks_mul, Memory.blocks_eq_iff] at hsrc ⊢
  rw [hb.blocks_mul]
  obtain ⟨hc', hp'⟩ := chainRun_acc_congr hP k (dstAddr s) (srcAddr s) (dstAddr s) (srcAddr s) _ hc hp hcc hpp
    hb.apart_blocks hb.apart_blocks _ le_rfl hsrc
  exact ⟨hc', hp', chainRun_dst_congr hP k (dstAddr s) (srcAddr s) (dstAddr s) (srcAddr s) _ hc hp hm hm' hcc hpp
    hb.dst_fits hb.dst_fits hb.apart_blocks hb.apart_blocks hsrc⟩

/-- A construction reads the IV and no other byte (R41, R83). -/
theorem construct_setMem (k : Mode) {s : State} {m : Memory}
    (h : AgreeOn [⟨initIvAddr s, 2 * P.blockSize⟩] m s.mem) :
    construct P k (s.setMem m) = (construct P k s).setMem m := by
  have hiv : (s.setMem m).mem.readBytes (initIvAddr (s.setMem m)) (2 * P.blockSize) =
      s.mem.readBytes (initIvAddr s) (2 * P.blockSize) := agreeOn_range.mp h
  simp only [construct, hiv]
  rfl

/-- A successful TRANSFORM depends on the bytes of src and on no other byte (R41). -/
theorem transform_setMem_congr (hP : P.Lawful) (hal : P.aliasCheck = true) {s : State} (hs : s.Inv P) {m : Memory}
    (hm : m.wf) (hmode : s.mode ≠ .none) (hb : GoodBuffers P s) (h : AgreeOn [⟨srcAddr s, srcLen s⟩] m s.mem) :
    (commandWith P .transform (s.setMem m)).toEngine = (commandWith P .transform s).toEngine ∧
      AgreeOn [⟨dstAddr s, srcLen s⟩] (commandWith P .transform (s.setMem m)).mem (commandWith P .transform s).mem := by
  obtain ⟨hc, hp, hdst⟩ := hb.chainRun_congr hP s.mode (l := transformLoop (s.setMem m)) (l' := transformLoop s)
    hs.engine.prevC_length hs.engine.prevP_length hm hs.mem_wf rfl rfl h
  rw [transform_good hal hmode hb, transform_good hal (s := s.setMem m) hmode (hb.setMem m)]
  refine ⟨?_, hdst⟩
  exact congrArg₂ (fun c p : Bytes => { s.toEngine with
    prevC := c
    prevP := p
    blocks := s.blocks + BitVec.ofNat 64 (srcLen s / P.blockSize)
    status := okStatus s.status }) hc hp

/-- A successful one-shot command depends on the bytes of the IV and of src and on no other byte (R41, R132). -/
theorem once_setMem_congr (hP : P.Lawful) (hal : P.aliasCheck = true) {i : Instr} {k : Mode}
    (hi : (i = .encOnce ∧ k = .enc) ∨ (i = .decOnce ∧ k = .dec)) {s : State} (hs : s.Inv P) {m : Memory} (hm : m.wf)
    (hv : GoodIv P (onceIvAddr s) (onceIvLen s)) (hb : GoodBuffers P s)
    (h : AgreeOn [⟨onceIvAddr s, 2 * P.blockSize⟩, ⟨srcAddr s, srcLen s⟩] m s.mem) :
    (commandWith P i (s.setMem m)).toEngine = (commandWith P i s).toEngine ∧
      AgreeOn [⟨dstAddr s, srcLen s⟩] (commandWith P i (s.setMem m)).mem (commandWith P i s).mem := by
  obtain ⟨hiv, hsrc⟩ := agreeOn_cons.mp h
  rw [agreeOn_range, Nat.two_mul, Memory.readBytes_add, Memory.readBytes_add] at hiv
  obtain ⟨hc, hp⟩ := List.append_inj hiv (by simp)
  obtain ⟨-, -, hdst⟩ := hb.chainRun_congr hP k (l := onceLoop P (s.setMem m)) (l' := onceLoop P s)
    (Memory.readBytes_length ..) (Memory.readBytes_length ..) hm hs.mem_wf hc hp hsrc
  rw [once_good hal hi hv hb, once_good hal hi (s := s.setMem m) hv (hb.setMem m)]
  exact ⟨rfl, hdst⟩

/-- A command depends on memory by the bytes it reads: from memories that agree on them it leaves one engine and writes
the same bytes (R41). -/
theorem command_setMem_congr (hP : P.Lawful) (hal : P.aliasCheck = true) (i : Instr) {s : State} (hs : s.Inv P)
    {m : Memory} (hm : m.wf) (h : AgreeOn (footprint P i s).reads m s.mem) :
    (commandWith P i (s.setMem m)).toEngine = (commandWith P i s).toEngine ∧
      AgreeOn (footprint P i s).writes (commandWith P i (s.setMem m)).mem (commandWith P i s).mem := by
  have he : commandError P i (s.setMem m) = commandError P i s := commandError_setMem i s m s.free
  cases hn : commandError P i s with
  | some e =>
    rw [command_error hn, command_error (he.trans hn), footprint_error hn]
    exact ⟨rfl, agreeOn_nil _ _⟩
  | none =>
    have hgood := (commandError_eq_none_iff hal i s).mp hn
    have init : ∀ k, AgreeOn [⟨initIvAddr s, 2 * P.blockSize⟩] m s.mem →
        (succeed (construct P k (s.setMem m))).toEngine = (succeed (construct P k s)).toEngine := fun k hiv => by
      rw [construct_setMem k hiv]
      rfl
    simp only [footprint, hn, Option.isSome_none, Bool.false_eq_true, if_false] at h ⊢
    cases i with
    | encInit =>
      rw [command_success hn, command_success (he.trans hn)]
      exact ⟨init .enc h, agreeOn_nil _ _⟩
    | decInit =>
      rw [command_success hn, command_success (he.trans hn)]
      exact ⟨init .dec h, agreeOn_nil _ _⟩
    | blocksize => exact ⟨rfl, agreeOn_nil _ _⟩
    | transform => exact transform_setMem_congr hP hal hs hm hgood.1 hgood.2 h
    | encOnce => exact once_setMem_congr hP hal (.inl ⟨rfl, rfl⟩) hs hm hgood.1 hgood.2 h
    | decOnce => exact once_setMem_congr hP hal (.inr ⟨rfl, rfl⟩) hs hm hgood.1 hgood.2 h

theorem command_actsWithin (hP : P.Lawful) (hal : P.aliasCheck = true) (i : Instr) {s : State} (hs : s.Inv P) :
    ActsWithin (commandWith P i) (footprint P i s) s where
  engine _ hm h := (command_setMem_congr hP hal i hs hm h).1
  written _ hm h := (command_setMem_congr hP hal i hs hm h).2
  unwritten m a ha := by
    refine command_read_unwritten hP i (s := s.setMem m) hs.engine ?_
    rwa [← footprint_setMem i s m s.free] at ha
  wf _ hm := command_wf hP i hs.engine.prevC_length hs.engine.prevP_length hm
  free _ := command_free hal i _
  answers _ := (command_operands i _).2.2.2.2.2.2.2

/-- An error touches no memory (R143). -/
theorem raise_actsWithin (e : ErrorCode) (s : State) : ActsWithin (raise e) { reads := [], writes := [] } s where
  engine _ _ _ := rfl
  written _ _ _ := agreeOn_nil _ _
  unwritten _ _ _ := rfl
  wf _ hm := hm
  free _ := rfl
  answers _ := rfl

section
variable {act act' : State → State} {fp fp' : Foreign} {s s' : State}

/-- What one agent does not write, another reads as before (R53). -/
theorem ActsWithin.agreeOn_reads (h : ActsWithin act fp s) {rs : List Range}
    (hd : ∀ a, covers fp.writes a = true → covers rs a = false) : AgreeOn rs (act s).mem s.mem := by
  intro a ha
  refine h.unwritten s.mem a ?_
  by_contra hw
  rw [Bool.not_eq_false] at hw
  simp [hd a hw] at ha

/-- Agents over one memory that touch disjoint bytes leave the same engines and the same memory in either order
(R53). -/
theorem ActsWithin.comm (h : ActsWithin act fp s) (h' : ActsWithin act' fp' s') (hmem : s'.mem = s.mem)
    (hwf : s.mem.wf)
    (hd : ∀ a, covers fp.writes a = true → covers fp'.reads a = false ∧ covers fp'.writes a = false)
    (hd' : ∀ a, covers fp'.writes a = true → covers fp.reads a = false ∧ covers fp.writes a = false) :
    (act (s.setMem (act' s').mem)).toEngine = (act s).toEngine ∧
      (act' (s'.setMem (act s).mem)).toEngine = (act' s').toEngine ∧
      (act' (s'.setMem (act s).mem)).mem = (act (s.setMem (act' s').mem)).mem := by
  have hw : (act s).mem.wf := h.wf s.mem hwf
  have hw' : (act' s').mem.wf := h'.wf s'.mem (hmem ▸ hwf)
  have hr : AgreeOn fp'.reads (act s).mem s'.mem := hmem ▸ h.agreeOn_reads fun a ha => (hd a ha).1
  have hr' : AgreeOn fp.reads (act' s').mem s.mem := hmem ▸ h'.agreeOn_reads fun a ha => (hd' a ha).1
  refine ⟨h.engine _ hw' hr', h'.engine _ hw hr, Memory.ext_read (h'.wf _ hw) (h.wf _ hw') fun a => ?_⟩
  by_cases ha : covers fp.writes a = true
  · rw [h'.unwritten _ a (hd a ha).2, h.written _ hw' hr' a ha]
  · rw [h.unwritten _ a (Bool.eq_false_of_not_eq_true ha)]
    by_cases ha' : covers fp'.writes a = true
    · exact h'.written _ hw hr a ha'
    · rw [h'.unwritten _ a (Bool.eq_false_of_not_eq_true ha')]
      exact (h.unwritten s.mem a (Bool.eq_false_of_not_eq_true ha)).trans
        ((h'.unwritten s'.mem a (Bool.eq_false_of_not_eq_true ha')).trans (by rw [hmem])).symm

end

/-- What a CMD write of a word leaves (R25, R141). -/
def wordResult (w : Word) (s : State) : State :=
  match decode w with
  | .ok i => commandWith Config.params i s
  | .error _ => raise .illegalCommand s

theorem runWord_exec (w : Word) (s : State) : runWord exec w s = .next (wordResult w s) := by
  cases h : decode w with
  | ok i => rw [runWord_ok h, exec_eq, wordResult, h]
  | error r => rw [runWord_error h, wordResult, h]

/-- The view of an engine is that engine on the memory of the system, with nothing waiting. -/
theorem System.view_cases {y : System} {k : Nat} {s : State} (h : y.view k = some s) :
    s.toEngine ∈ y.engines ∧ s.mem = y.mem ∧ s.free = y.free ∧ s.answers = y.answers ∧ s.bus = [] := by
  obtain ⟨e, he, rfl⟩ := Option.map_eq_some_iff.mp h
  exact ⟨List.mem_of_getElem? he, rfl, rfl, rfl, rfl⟩

/-- Another engine's result changes of a view the memory alone (R10). -/
theorem System.view_update_of_ne {y : System} {j k : Nat} {s t : State} (hjk : j ≠ k) (hs : y.view k = some s)
    (hf : t.free = y.free) (ha : t.answers = y.answers) : (y.update j t).view k = some (s.setMem t.mem) := by
  obtain ⟨e, he, rfl⟩ := Option.map_eq_some_iff.mp hs
  rw [System.view, System.update_engines_of_ne y t hjk.symm, he, Option.map_some]
  simp [System.update, State.setMem, hf, ha]

/-- A CMD write to an engine that answers takes that engine's view to the word's result (R25). -/
theorem System.access_cmd {y z : System} {k : Nat} {w : Word} (h : y.access k (.regWrite 0x00 64 w) = .next z) :
    ∃ s, y.view k = some s ∧ z = y.update k (wordResult w s) := by
  obtain ⟨s, t, hs, ht, rfl⟩ := System.access_cases h
  obtain ⟨-, -, -, -, hbus⟩ := System.view_cases hs
  have hview : (s.setBus [.regWrite 0x00 64 w]).setBus [] = s := hbus ▸ s.setBus_self
  rw [step_access rfl, hview] at ht
  cases (runWord_exec w s).symm.trans ht
  exact ⟨s, hs, rfl⟩

/-- A CMD write to an engine behind another engine's result (R10, R25). -/
theorem System.access_cmd_after {y z : System} {j k : Nat} {t u : State} {w : Word} (hjk : j ≠ k)
    (hu : y.view k = some u) (hf : t.free = y.free) (ha : t.answers = y.answers)
    (h : (y.update j t).access k (.regWrite 0x00 64 w) = .next z) :
    z = (y.update j t).update k (wordResult w (u.setMem t.mem)) := by
  obtain ⟨u', hu', rfl⟩ := System.access_cmd h
  rw [System.view_update_of_ne hjk hu hf ha] at hu'
  cases hu'
  rfl

/-- A CMD word acts within its footprint (R41, R141). -/
theorem System.wordResult_actsWithin {y : System} {k : Nat} {s : State} (hs : y.view k = some s)
    (hinv : s.Inv Config.params) (w : Word) : ActsWithin (wordResult w) (y.footprintOf k w) s := by
  unfold wordResult System.footprintOf
  cases h : decode w with
  | ok i =>
    rw [hs]
    exact command_actsWithin Config.params_lawful rfl i hinv
  | error r =>
    rw [hs]
    exact raise_actsWithin ..

/-- Results of different engines can be taken over in either order, if memory ends the same (R10). -/
theorem System.update_comm (y : System) {j k : Nat} (hjk : j ≠ k) {t t' u u' : State}
    (ht : t.toEngine = t'.toEngine) (hu : u.toEngine = u'.toEngine) (hm : u.mem = t'.mem) (hf : u.free = t'.free)
    (ha : u.answers = t'.answers) : (y.update j t).update k u = (y.update k u').update j t' := by
  simp only [System.update, ht, hu, hm, hf, ha, List.set_comm _ _ hjk]

/-- Settles O47: each word acts within its footprint, so either order ends with the same engines and memory. -/
theorem disjointEnginesCommute : Obligations.DisjointEnginesCommute := by
  intro y z₁ z₂ z₃ z₄ j k wj wk hjk hwf hinv hd hd' h₁ h₂ h₃ h₄
  obtain ⟨s, hs, rfl⟩ := System.access_cmd h₁
  obtain ⟨u, hu, rfl⟩ := System.access_cmd h₃
  obtain ⟨hse, hsm, hsf, hsa, -⟩ := System.view_cases hs
  obtain ⟨hue, hum, huf, hua, -⟩ := System.view_cases hu
  have hj := System.wordResult_actsWithin hs ⟨hinv _ hse, hsm ▸ hwf⟩ wj
  have hk := System.wordResult_actsWithin hu ⟨hinv _ hue, hum ▸ hwf⟩ wk
  obtain rfl := System.access_cmd_after hjk hu ((hj.free s.mem).trans hsf) ((hj.answers s.mem).trans hsa) h₂
  obtain rfl := System.access_cmd_after hjk.symm hs ((hk.free u.mem).trans huf) ((hk.answers u.mem).trans hua) h₄
  obtain ⟨hse', hue', hmem⟩ := hj.comm hk (hum.trans hsm.symm) (hsm ▸ hwf) hd hd'
  refine y.update_comm hjk hse'.symm hue' hmem ?_ ?_
  · rw [hk.free, hj.free]
    exact huf.trans hsf.symm
  · rw [hk.answers, hj.answers]
    exact hua.trans hsa.symm

end Sys2Proof.Machine
end

section
/-! PROOFS. The statements on the encoding (30_encoding): the decoder is the opcode map and the encoder its inverse
(R60 to R65), and a command line is a list of operand writes behind which its command runs (R67). -/

namespace Sys2Proof.Machine

/-! ### The command word -/

/-- OPCODE is the low byte of the word (R60). -/
theorem opcodeField_eq (w : Word) : opcodeField w = w.toNat % 2 ^ 8 := by
  simp [opcodeField]

/-- RSVD is what stands above the low byte (R60). -/
theorem reservedField_eq (w : Word) : reservedField w = w.toNat / 2 ^ 8 := by
  have hw := w.isLt
  simp only [reservedField, BitVec.extractLsb'_toNat, Nat.shiftRight_eq_div_pow]
  omega

/-- The word of a command is its opcode, zero-extended (R60). -/
theorem encode_toNat (i : Instr) : (encode i).toNat = (opcode i).toNat := by
  cases i <;> rfl

/-- R61, row by row. -/
theorem decodeOpcode_opcode (i : Instr) : decodeOpcode (opcode i).toNat = .ok i := by cases i <;> rfl

/-- The opcode map answers a command at its opcode only (R61). -/
theorem decodeOpcode_ok_iff (n : Nat) (i : Instr) : decodeOpcode n = .ok i ↔ n = (opcode i).toNat := by
  constructor
  · intro h
    unfold decodeOpcode at h
    split at h <;> cases h <;> rfl
  · rintro rfl
    exact decodeOpcode_opcode i

/-- The opcodes outside the map (R62). -/
theorem decodeOpcode_error_iff (n : Nat) : (∃ r, decodeOpcode n = .error r) ↔ n = 0x00 ∨ 0x07 ≤ n := by
  unfold decodeOpcode
  split
  case h_7 =>
    simp only [imp_false] at *
    exact iff_of_true ⟨_, rfl⟩ (by omega)
  all_goals simp

/-- The words of a command (R61, R65). -/
theorem decode_ok_iff (w : Word) (i : Instr) :
    decode w = .ok i ↔ w.toNat / 2 ^ 8 = 0 ∧ w.toNat % 2 ^ 8 = (opcode i).toNat := by
  rw [decode, reservedField_eq, opcodeField_eq]
  split
  · next hr => exact iff_of_false nofun fun h => hr h.1
  · next hr =>
    rw [decodeOpcode_ok_iff]
    exact (and_iff_right (not_not.mp hr)).symm

/-- The illegal words (R62). -/
theorem decode_error_iff (w : Word) :
    (∃ r, decode w = .error r) ↔ w.toNat / 2 ^ 8 ≠ 0 ∨ w.toNat % 2 ^ 8 = 0x00 ∨ 0x07 ≤ w.toNat % 2 ^ 8 := by
  rw [decode, reservedField_eq, opcodeField_eq]
  split
  · next hr => exact iff_of_true ⟨_, rfl⟩ (.inl hr)
  · next hr =>
    rw [decodeOpcode_error_iff]
    exact (or_iff_right hr).symm

/-- An illegal word is no command (R62). -/
theorem decode_ne_ok {w : Word} (h : w.toNat / 2 ^ 8 ≠ 0 ∨ w.toNat % 2 ^ 8 = 0x00 ∨ 0x07 ≤ w.toNat % 2 ^ 8)
    (i : Instr) : decode w ≠ .ok i := by
  obtain ⟨r, hr⟩ := (decode_error_iff w).mpr h
  rw [hr]
  nofun

/-- A command's word decodes to it (R65). -/
theorem decode_encode (i : Instr) : decode (encode i) = .ok i := by
  have ho := (opcode i).isLt
  rw [decode_ok_iff, encode_toNat]
  omega

/-- A command has one word (R60, R61). -/
theorem encode_of_decode {w : Word} {i : Instr} (h : decode w = .ok i) : encode i = w := by
  obtain ⟨hr, ho⟩ := (decode_ok_iff w i).mp h
  refine BitVec.eq_of_toNat_eq ?_
  rw [encode_toNat]
  omega

theorem encode_injective {i j : Instr} (h : encode i = encode j) : i = j := by
  have hi := decode_encode i
  rw [h, decode_encode] at hi
  cases hi
  rfl

/-! ### Command lines as operand writes -/

/-- A register determines its offset and back (R31). -/
theorem regOffset_injective {r q : Reg} (h : regOffset r = regOffset q) : r = q := by
  have hr := regAt_regOffset r
  rw [h, regAt_regOffset] at hr
  cases hr
  rfl

theorem cmdAccess_injective {i j : Instr} (h : cmdAccess i = cmdAccess j) : i = j := by
  simp only [cmdAccess, Access.regWrite.injEq, true_and] at h
  exact encode_injective h

/-- A register write keeps every bit of a value below `2^64` (R66). -/
theorem wrAccess_injective {r q : Reg} {v w : Nat} (hv : v < 2 ^ 64) (hw : w < 2 ^ 64)
    (h : wrAccess r v = wrAccess q w) : r = q ∧ v = w := by
  simp only [wrAccess, Access.regWrite.injEq, true_and] at h
  obtain ⟨hr, hvw⟩ := h
  have hn := congrArg BitVec.toNat hvw
  simp only [BitVec.toNat_ofNat, Nat.mod_eq_of_lt hv, Nat.mod_eq_of_lt hw] at hn
  exact ⟨regOffset_injective hr, hn⟩

/-- The operand registers a command line lists, in order, with its values (R63, R67). -/
def lineOperands (l : Line) : List (Reg × Nat) :=
  match l with
  | .wr _ _ => []
  | .rd _ => []
  | .encInit iv ivLen => [(.op0, iv), (.op1, ivLen)]
  | .decInit iv ivLen => [(.op0, iv), (.op1, ivLen)]
  | .blocksize => []
  | .transform dst dstLen src srcLen => [(.op0, dst), (.op1, dstLen), (.op2, src), (.op3, srcLen)]
  | .encOnce dst dstLen src srcLen iv ivLen =>
    [(.op0, dst), (.op1, dstLen), (.op2, src), (.op3, srcLen), (.op4, iv), (.op5, ivLen)]
  | .decOnce dst dstLen src srcLen iv ivLen =>
    [(.op0, dst), (.op1, dstLen), (.op2, src), (.op3, srcLen), (.op4, iv), (.op5, ivLen)]

/-- The register writes of a list of operands, in order. -/
def operandWrites (ops : List (Reg × Nat)) : List Access := ops.map fun o => wrAccess o.1 o.2

/-- A command line is its operand writes, then its CMD write (R67). -/
theorem expand_eq {l : Line} {i : Instr} (h : lineCommand l = some i) :
    expand l = operandWrites (lineOperands l) ++ [cmdAccess i] := by
  cases l <;> cases h <;> rfl

/-- No line writes CMD as an operand (R63). -/
theorem lineOperands_ne_cmd (l : Line) : ∀ o ∈ lineOperands l, o.1 ≠ .cmd := by
  cases l <;> simp [lineOperands]

/-- The operands of a well-formed line are register values (R66). -/
theorem lineOperands_fit {l : Line} (h : l.wf = true) : ∀ o ∈ lineOperands l, o.2 < 2 ^ 64 := by
  cases l
  case wr => nofun
  case rd => nofun
  case blocksize => nofun
  all_goals simpa [lineOperands, Line.wf, valueFits, and_assoc] using h

/-- Different lists of operands below `2^64` have different register writes (R67). -/
theorem operandWrites_injective {ops ops' : List (Reg × Nat)} (h : ∀ o ∈ ops, o.2 < 2 ^ 64)
    (h' : ∀ o ∈ ops', o.2 < 2 ^ 64) (he : operandWrites ops = operandWrites ops') : ops = ops' := by
  induction ops generalizing ops' with
  | nil => exact (List.map_eq_nil_iff.mp he.symm).symm
  | cons o ops ih =>
    cases ops' with
    | nil => cases he
    | cons o' ops' =>
      obtain ⟨ho, hops⟩ := List.forall_mem_cons.mp h
      obtain ⟨ho', hops'⟩ := List.forall_mem_cons.mp h'
      obtain ⟨hhead, htail⟩ := List.cons.inj he
      obtain ⟨hr, hv⟩ := wrAccess_injective ho ho' hhead
      rw [Prod.ext hr hv, ih hops hops' htail]

/-- The line of a command and its operands, the inverse of `lineOperands` (R67). -/
def lineOf (i : Instr) (ops : List (Reg × Nat)) : Option Line :=
  match i, ops with
  | .encInit, [(_, iv), (_, ivLen)] => some (.encInit iv ivLen)
  | .decInit, [(_, iv), (_, ivLen)] => some (.decInit iv ivLen)
  | .blocksize, [] => some .blocksize
  | .transform, [(_, dst), (_, dstLen), (_, src), (_, srcLen)] => some (.transform dst dstLen src srcLen)
  | .encOnce, [(_, dst), (_, dstLen), (_, src), (_, srcLen), (_, iv), (_, ivLen)] =>
    some (.encOnce dst dstLen src srcLen iv ivLen)
  | .decOnce, [(_, dst), (_, dstLen), (_, src), (_, srcLen), (_, iv), (_, ivLen)] =>
    some (.decOnce dst dstLen src srcLen iv ivLen)
  | _, _ => none

theorem lineOf_lineOperands {l : Line} {i : Instr} (h : lineCommand l = some i) :
    lineOf i (lineOperands l) = some l := by
  cases l <;> cases h <;> rfl

/-- A command line is recovered from its command and its operands. -/
theorem line_ext {l k : Line} {i : Instr} (hl : lineCommand l = some i) (hk : lineCommand k = some i)
    (h : lineOperands l = lineOperands k) : l = k := by
  have hlk := lineOf_lineOperands hl
  rw [h, lineOf_lineOperands hk] at hlk
  exact (Option.some.inj hlk).symm

/-! ### Running a command line -/

/-- The operand registers written in order, nothing else (R24). -/
def writeOperands (s : State) (ops : List (Reg × Nat)) : State :=
  ops.foldl (fun t o => writeReg t o.1 (BitVec.ofNat 64 o.2)) s

theorem writeOperands_bus (s : State) (ops : List (Reg × Nat)) : (writeOperands s ops).bus = s.bus := by
  induction ops generalizing s with
  | nil => rfl
  | cons o ops ih => exact (ih _).trans (writeReg_bus ..)

/-- Taking an access from the queue and writing a register do not touch each other. -/
theorem writeReg_setBus (s : State) (r : Reg) (w : Word) (b : List Access) :
    (writeReg s r w).setBus b = writeReg (s.setBus b) r w := by
  cases r <;> rfl

theorem writeOperands_setBus (s : State) (ops : List (Reg × Nat)) (b : List Access) :
    (writeOperands s ops).setBus b = writeOperands (s.setBus b) ops := by
  induction ops generalizing s with
  | nil => rfl
  | cons o ops ih =>
    refine (ih _).trans ?_
    rw [writeReg_setBus]
    rfl

/-- A run over operand writes leaves them in their registers (R24). -/
theorem run_operandWrites {ops : List (Reg × Nat)} (hops : ∀ o ∈ ops, o.1 ≠ .cmd) {s : State} {rest : List Access}
    (hb : s.bus = operandWrites ops ++ rest) (n : Nat) :
    Sys2Proof.core.run (ops.length + n) s = Sys2Proof.core.run n (writeOperands (s.setBus rest) ops) := by
  induction ops generalizing s with
  | nil =>
    have hs : s.setBus rest = s := by
      obtain rfl : s.bus = rest := hb
      rfl
    rw [List.length_nil, Nat.zero_add, hs]
    rfl
  | cons o ops ih =>
    obtain ⟨ho, hops⟩ := List.forall_mem_cons.mp hops
    have hstep := step_writeReg ho hb
    have hrest := ih hops (writeReg_bus (s.setBus (operandWrites ops ++ rest)) o.1 (BitVec.ofNat 64 o.2))
    rw [List.length_cons, Nat.add_right_comm]
    refine (run_succ hstep _).trans (hrest.trans ?_)
    rw [writeReg_setBus]
    rfl

/-- The state a command line's command runs in: `rest` waits, and the operand registers hold the line's values. -/
def lineState (l : Line) (s : State) (rest : List Access) : State := writeOperands (s.setBus rest) (lineOperands l)

/-- A run over a command line's accesses is its command behind its operand writes (R25, R67). -/
theorem run_expand {l : Line} {i : Instr} (hl : lineCommand l = some i) {s : State} {rest : List Access}
    (hb : s.bus = expand l ++ rest) : Sys2Proof.core.run (expand l).length s = exec i (lineState l s rest) := by
  rw [expand_eq hl, List.append_assoc] at hb
  rw [expand_eq hl, List.length_append, operandWrites, List.length_map]
  refine (run_operandWrites (lineOperands_ne_cmd l) hb 1).trans ?_
  have hcmd := step_access (writeOperands_bus (s.setBus (cmdAccess i :: rest)) (lineOperands l))
  rw [writeOperands_setBus] at hcmd
  have hexec := hcmd.trans ((perform_cmd exec _ _).trans (runWord_ok (decode_encode i) _))
  exact (run_succ (hexec.trans (exec_eq i _)) 0).trans (exec_eq i _).symm

/-! ### The statements -/

/-- Settles O3: both ways of the word follow from `decode_ok_iff`; equal expansions end in one CMD write, so in one
command, and operand writes are injective. -/
theorem commandEncodingLosesNothing : Obligations.CommandEncodingLosesNothing := by
  refine ⟨fun i _ => decode_encode i, fun _ _ h => encode_of_decode h, fun l k hwl hwk hl hk he => ?_⟩
  obtain ⟨i, hi⟩ := Option.ne_none_iff_exists'.mp hl
  obtain ⟨j, hj⟩ := Option.ne_none_iff_exists'.mp hk
  rw [expand_eq hi, expand_eq hj] at he
  obtain ⟨hops, hcmd⟩ := List.append_inj' he rfl
  obtain rfl := cmdAccess_injective (List.singleton_inj.mp hcmd)
  exact line_ext hi hj (operandWrites_injective (lineOperands_fit hwl) (lineOperands_fit hwk) hops)

/-- Settles O43: by `run_expand`; `lineState` holds the line's values because they fit their registers. -/
theorem commandLinesRunTheirCommand : Obligations.CommandLinesRunTheirCommand := by
  intro l i s rest hwf hl hb
  refine ⟨_, run_expand hl hb, ?_⟩
  have values : ∀ o ∈ lineOperands l, (BitVec.ofNat 64 o.2).toNat = o.2 := fun o ho => by
    rw [BitVec.toNat_ofNat, Nat.mod_eq_of_lt (lineOperands_fit hwf o ho)]
  cases l
  case wr => cases hl
  case rd => cases hl
  case blocksize => rfl
  all_goals
    simp only [lineOperands, List.forall_mem_cons, List.not_mem_nil, false_imp_iff, implies_true, and_true] at values
    simp only [lineState, lineOperands, writeOperands, List.foldl, writeReg, State.setBus, true_and]
    exact values

/-- Settles O1: the words of commands are their encodings, the others meet the condition of R62. -/
theorem commandWordsDecode : Obligations.CommandWordsDecode :=
  ⟨decode_encode .encInit, decode_encode .decInit, decode_encode .blocksize, decode_encode .transform,
    decode_encode .encOnce, decode_encode .decOnce, decode_ne_ok (by decide), decode_ne_ok (by decide),
    decode_ne_ok (by decide), decode_ne_ok (by decide), decode_ne_ok (by decide)⟩

/-- Settles O2: the words of each command and the illegal words. -/
theorem decodeFollowsTheOpcodeMap : Obligations.DecodeFollowsTheOpcodeMap :=
  ⟨(decode_ok_iff · .encInit), (decode_ok_iff · .decInit), (decode_ok_iff · .blocksize), (decode_ok_iff · .transform),
    (decode_ok_iff · .encOnce), (decode_ok_iff · .decOnce), decode_error_iff⟩

/-- Settles O42: `expand` line by line, with the offsets and the command words evaluated. -/
theorem linesExpandToRegisterWrites : Obligations.LinesExpandToRegisterWrites :=
  ⟨fun _ _ => rfl, fun _ _ => rfl, rfl, fun _ _ _ _ => rfl, fun _ _ _ _ _ _ => rfl, fun _ _ _ _ _ _ => rfl⟩

end Sys2Proof.Machine
end

section
/-! PROOFS. The statements on construction and the block-size query (40_construct): both constructions check the IV,
split it and set their MODE (R80 to R84), and BLOCKSIZE reports `B` (R87). -/

namespace Sys2Proof.Machine

variable {P : Params}

/-! ### The ends of a construction -/

/-- A construction over a good IV: the accumulators are its halves and BLOCKS starts at 0 (R82, R83). -/
theorem construction_goodIv (m : Mode) {s : State} (h : GoodIv P (initIvAddr s) (initIvLen s)) :
    guarded (initError P s) (construct P m s) s = { s with
      mode := m
      prevC := s.mem.readBytes s.op0.toNat P.blockSize
      prevP := s.mem.readBytes (s.op0.toNat + P.blockSize) P.blockSize
      blocks := 0
      status := okStatus s.status } := by
  rw [initError, (checkIv_eq_none_iff ..).mpr h, guarded, succeed_eq, construct, slice_readBytes_first,
    slice_readBytes_second]
  rfl

/-- A wrong IV length is CONFIGURATION_ERROR, code 1, and STATUS alone changes (R80). -/
theorem construction_length (m : Mode) {s : State} (h : initIvLen s ≠ 2 * P.blockSize) :
    guarded (initError P s) (construct P m s) s = { s with status := errorStatus s.status 1 } := by
  rw [initError, checkIv_length h]
  exact raise_eq .configuration s

/-- An IV of the right length past the top of memory is ADDRESS_RANGE_ERROR, code 7, and STATUS alone changes (R81). -/
theorem construction_range (m : Mode) {s : State} (h : initIvLen s = 2 * P.blockSize)
    (hr : 2 ^ 64 < initIvAddr s + 2 * P.blockSize) :
    guarded (initError P s) (construct P m s) s = { s with status := errorStatus s.status 7 } := by
  rw [initError, checkIv_range h hr]
  exact raise_eq .addressRange s

/-! ### The statements -/

/-- Settles O7: ENC_INIT is the construction in MODE ENC, whose ends are the three cases of the IV checks. -/
theorem encInitFollowsItsPseudocode : Obligations.EncInitFollowsItsPseudocode :=
  ⟨decode_encode .encInit, fun _ =>
    ⟨fun hl hr => congrArg Host.Outcome.next (construction_goodIv .enc ⟨hl, hr⟩),
      fun hl => congrArg Host.Outcome.next (construction_length .enc hl),
      fun hl hr => congrArg Host.Outcome.next (construction_range .enc hl hr)⟩⟩

/-- Settles O8: DEC_INIT is the construction in MODE DEC, with the IV split as in ENC_INIT. -/
theorem decInitFollowsItsPseudocode : Obligations.DecInitFollowsItsPseudocode :=
  ⟨decode_encode .decInit, fun _ =>
    ⟨fun hl hr => congrArg Host.Outcome.next (construction_goodIv .dec ⟨hl, hr⟩),
      fun hl => congrArg Host.Outcome.next (construction_length .dec hl),
      fun hl hr => congrArg Host.Outcome.next (construction_range .dec hl hr)⟩⟩

/-- Settles O9: BLOCKSIZE has no error, and `B` fits RESULT because an IV of two blocks fits a register (R7). -/
theorem blocksizeReportsTheBlockSize : Obligations.BlocksizeReportsTheBlockSize := by
  refine ⟨decode_encode .blocksize, fun s => ⟨BitVec.ofNat 64 Config.blockSize, ?_, ?_⟩⟩
  · have hfits := Config.iv_fits
    rw [BitVec.toNat_ofNat, Nat.mod_eq_of_lt (by omega)]
  · rw [exec_eq, command_success rfl, succeed_eq]
    rfl

end Sys2Proof.Machine
end

section
/-! PROOFS. The statements on TRANSFORM (41_transform): the block loop over good buffers writes the chain of its kind
(R105 to R109), depends on its src bytes and accumulators alone (R118), and is undone by the other kind (R113). -/

namespace Sys2Proof.Machine

variable {P : Params}

/-! ### The block loop over the buffers of the operand registers -/

/-- The block loop over src and dst of the operand registers of `s`, from where `l` stands (R105). -/
abbrev bufferRun (P : Params) (m : Mode) (s : State) (l : Loop) : Loop :=
  chainRun P m (dstAddr s) (srcAddr s) (srcLen s / P.blockSize) l

/-- The accumulators of a loop are blocks (R21) and its memory is in canonical form (R40). -/
structure Loop.Inv (P : Params) (l : Loop) : Prop where
  c_length : l.c.length = P.blockSize
  p_length : l.p.length = P.blockSize
  mem_wf : l.mem.wf

theorem State.Inv.transformLoop {s : State} (h : s.Inv P) : (transformLoop s).Inv P :=
  ⟨h.engine.prevC_length, h.engine.prevP_length, h.mem_wf⟩

/-- Bytes of a good buffer's length are equal exactly when their blocks are (R42, R101). -/
theorem GoodBuffers.readBytes_eq_iff {s : State} (hb : GoodBuffers P s) (m m' : Memory) (a a' : Nat) :
    m.readBytes a (srcLen s) = m'.readBytes a' (srcLen s) ↔
      ∀ i < srcLen s / P.blockSize, m.block P.blockSize a i = m'.block P.blockSize a' i := by
  rw [← Memory.blocks_eq_iff, hb.blocks_mul]

section
variable (hP : P.Lawful) {s : State} (hb : GoodBuffers P s) {l : Loop} (hl : l.Inv P)
include hP hb hl

/-- Dst block `i` is the output of step `i` on src block `i` as it was before the loop (R105, R107). -/
theorem GoodBuffers.bufferRun_block (m : Mode) {i : Nat} (hi : i < srcLen s / P.blockSize) :
    (bufferRun P m s l).mem.block P.blockSize (dstAddr s) i =
      (chainStep P m (l.mem.block P.blockSize (srcAddr s) i) (chainRun P m (dstAddr s) (srcAddr s) i l).c
        (chainRun P m (dstAddr s) (srcAddr s) i l).p).out :=
  chainRun_dst_block hP m _ _ _ i hl.c_length hl.p_length hl.mem_wf hb.dst_fits hi hb.apart_blocks

/-- The encoder's recurrence: `c_i = Enc(m_i ⊕ c_{i-1}) ⊕ m_{i-1}` (R106). -/
theorem GoodBuffers.encRun_block {i : Nat} (hi : i < srcLen s / P.blockSize) :
    (bufferRun P .enc s l).mem.block P.blockSize (dstAddr s) i =
      xorBytes
        (P.enc (xorBytes (l.mem.block P.blockSize (srcAddr s) i)
          (if i = 0 then l.c else (bufferRun P .enc s l).mem.block P.blockSize (dstAddr s) (i - 1))))
        (if i = 0 then l.p else l.mem.block P.blockSize (srcAddr s) (i - 1)) := by
  obtain ⟨hc, hp⟩ := chainRun_enc_acc hP _ _ _ hl.c_length hl.p_length hl.mem_wf hb.dst_fits hb.apart_blocks i hi.le
  rw [hb.bufferRun_block hP hl .enc hi, ← hc, ← hp]
  rfl

/-- The encoder ends with the last block written and the last block read (R106). -/
theorem GoodBuffers.encRun_acc :
    (bufferRun P .enc s l).c =
        (bufferRun P .enc s l).mem.block P.blockSize (dstAddr s) (srcLen s / P.blockSize - 1) ∧
      (bufferRun P .enc s l).p = l.mem.block P.blockSize (srcAddr s) (srcLen s / P.blockSize - 1) := by
  have hn : srcLen s / P.blockSize ≠ 0 := Nat.one_le_iff_ne_zero.mp hb.blocks_pos
  have h := chainRun_enc_acc hP _ _ _ hl.c_length hl.p_length hl.mem_wf hb.dst_fits hb.apart_blocks _ le_rfl
  rwa [if_neg hn, if_neg hn] at h

/-- The decoder's recurrence: `m_i = Dec(c_i ⊕ m_{i-1}) ⊕ c_{i-1}` (R108). -/
theorem GoodBuffers.decRun_block {i : Nat} (hi : i < srcLen s / P.blockSize) :
    (bufferRun P .dec s l).mem.block P.blockSize (dstAddr s) i =
      xorBytes
        (P.dec (xorBytes (l.mem.block P.blockSize (srcAddr s) i)
          (if i = 0 then l.p else (bufferRun P .dec s l).mem.block P.blockSize (dstAddr s) (i - 1))))
        (if i = 0 then l.c else l.mem.block P.blockSize (srcAddr s) (i - 1)) := by
  obtain ⟨hc, hp⟩ := chainRun_dec_acc hP _ _ _ hl.c_length hl.p_length hl.mem_wf hb.dst_fits hb.apart_blocks i hi.le
  rw [hb.bufferRun_block hP hl .dec hi, ← hc, ← hp]
  rfl

/-- The decoder ends with the last block read and the last block written (R108). -/
theorem GoodBuffers.decRun_acc :
    (bufferRun P .dec s l).c = l.mem.block P.blockSize (srcAddr s) (srcLen s / P.blockSize - 1) ∧
      (bufferRun P .dec s l).p =
        (bufferRun P .dec s l).mem.block P.blockSize (dstAddr s) (srcLen s / P.blockSize - 1) := by
  have hn : srcLen s / P.blockSize ≠ 0 := Nat.one_le_iff_ne_zero.mp hb.blocks_pos
  have h := chainRun_dec_acc hP _ _ _ hl.c_length hl.p_length hl.mem_wf hb.dst_fits hb.apart_blocks _ le_rfl
  rwa [if_neg hn, if_neg hn] at h

end

/-! ### Two block loops -/

section
variable (hP : P.Lawful) {s u : State} (hs : GoodBuffers P s) (hu : GoodBuffers P u) (hlen : srcLen u = srcLen s)
  {l l' : Loop} (hl : l.Inv P) (hl' : l'.Inv P) (hc : l.c = l'.c) (hp : l.p = l'.p)
include hP hs hu hlen hl hc hp

/-- Loops over src blocks that are equal before block `k`, from equal accumulators, have equal accumulators up to
block `k` (R116, R118). -/
theorem bufferRun_acc_congr (m : Mode) {k : Nat} (hk : k ≤ srcLen s / P.blockSize)
    (hsrc : ∀ i < k, l.mem.block P.blockSize (srcAddr s) i = l'.mem.block P.blockSize (srcAddr u) i) :
    (chainRun P m (dstAddr s) (srcAddr s) k l).c = (chainRun P m (dstAddr u) (srcAddr u) k l').c ∧
      (chainRun P m (dstAddr s) (srcAddr s) k l).p = (chainRun P m (dstAddr u) (srcAddr u) k l').p :=
  chainRun_acc_congr hP m _ _ _ _ _ hl.c_length hl.p_length hc hp hs.apart_blocks (hlen ▸ hu.apart_blocks) k hk hsrc

include hl'

/-- Such loops write equal blocks before block `k` (R116, R118). -/
theorem bufferRun_block_congr (m : Mode) {k : Nat} (hk : k ≤ srcLen s / P.blockSize)
    (hsrc : ∀ i < k, l.mem.block P.blockSize (srcAddr s) i = l'.mem.block P.blockSize (srcAddr u) i) {i : Nat}
    (hi : i < k) :
    (bufferRun P m s l).mem.block P.blockSize (dstAddr s) i =
      (bufferRun P m u l').mem.block P.blockSize (dstAddr u) i := by
  have hin : i < srcLen s / P.blockSize := hi.trans_le hk
  obtain ⟨ec, ep⟩ := bufferRun_acc_congr hP hs hu hlen hl hc hp m hin.le fun j hj => hsrc j (hj.trans hi)
  rw [hs.bufferRun_block hP hl m hin, hu.bufferRun_block hP hl' m (hlen ▸ hin), hsrc i hi, ec, ep]

/-- Loops over equal src bytes from equal accumulators write equal bytes and end with equal accumulators, wherever the
buffers stand (R118). -/
theorem bufferRun_congr (m : Mode)
    (hsrc : l.mem.readBytes (srcAddr s) (srcLen s) = l'.mem.readBytes (srcAddr u) (srcLen s)) :
    (bufferRun P m s l).mem.readBytes (dstAddr s) (srcLen s) =
        (bufferRun P m u l').mem.readBytes (dstAddr u) (srcLen s) ∧
      (bufferRun P m s l).c = (bufferRun P m u l').c ∧ (bufferRun P m s l).p = (bufferRun P m u l').p := by
  rw [hs.readBytes_eq_iff] at hsrc ⊢
  refine ⟨fun i hi => bufferRun_block_congr hP hs hu hlen hl hl' hc hp m le_rfl hsrc hi, ?_⟩
  rw [bufferRun, bufferRun, hlen]
  exact bufferRun_acc_congr hP hs hu hlen hl hc hp m le_rfl hsrc

/-- The decoder's loop over what the encoder's loop wrote, from equal accumulators, writes the encoder's src bytes and
ends with equal accumulators (R113, R114). -/
theorem bufferRun_dec_enc
    (hsrc : l'.mem.readBytes (srcAddr u) (srcLen s) = (bufferRun P .enc s l).mem.readBytes (dstAddr s) (srcLen s)) :
    (bufferRun P .dec u l').mem.readBytes (dstAddr u) (srcLen s) = l.mem.readBytes (srcAddr s) (srcLen s) ∧
      (bufferRun P .dec u l').c = (bufferRun P .enc s l).c ∧
      (bufferRun P .dec u l').p = (bufferRun P .enc s l).p := by
  rw [hs.readBytes_eq_iff] at hsrc ⊢
  have acc := chainRun_dec_enc_acc hP _ _ (dstAddr u) (srcAddr u) _ hl.c_length hl.p_length hl.mem_wf hc hp hs.dst_fits
    hs.apart_blocks (hlen ▸ hu.apart_blocks) hsrc
  refine ⟨fun i hi => ?_, ?_⟩
  · obtain ⟨ec, ep⟩ := acc i hi.le
    rw [hu.bufferRun_block hP hl' .dec (hlen ▸ hi), ec, ep, hsrc i hi,
      chainStep_dec_enc hP _ _ _ i hl.c_length hl.p_length hl.mem_wf hs.dst_fits hs.apart_blocks hi]
  · rw [bufferRun, bufferRun, hlen]
    exact acc _ le_rfl

end

/-- The block count of joined buffers (R117). -/
theorem GoodBuffers.blocks_add {s : State} (hb : GoodBuffers P s) (n : Nat) :
    (srcLen s + n) / P.blockSize = srcLen s / P.blockSize + n / P.blockSize :=
  Nat.add_div_of_dvd_right (Nat.dvd_of_mod_eq_zero hb.aligned)

/-- A loop over the buffers of `s` and then one over the buffers of `u` right behind them is one loop over the joined
buffers of `w` (R117). -/
theorem bufferRun_concat {s u w : State} (hs : GoodBuffers P s) (hud : dstAddr u = dstAddr s + srcLen s)
    (hua : srcAddr u = srcAddr s + srcLen s) (hwd : dstAddr w = dstAddr s) (hwa : srcAddr w = srcAddr s)
    (hwl : srcLen w = srcLen s + srcLen u) (m : Mode) (l : Loop) :
    bufferRun P m u (bufferRun P m s l) = bufferRun P m w l := by
  rw [bufferRun, bufferRun, bufferRun, hwl, hs.blocks_add, hud, hua, hwd, hwa, chainRun_add, hs.blocks_mul]

/-- A decoder step from given accumulators tells different src blocks apart (R115, R116). -/
theorem chainStep_dec_injective {x y c p : Bytes} (hx : x.length = Config.blockSize) (hy : y.length = Config.blockSize)
    (hc : c.length = Config.blockSize) (hp : p.length = Config.blockSize)
    (h : (chainStep Config.params .dec x c p).out = (chainStep Config.params .dec y c p).out) : x = y := by
  have hxp : (xorBytes x p).length = Config.blockSize := by simp [hx, hp]
  have hyp : (xorBytes y p).length = Config.blockSize := by simp [hy, hp]
  have hdec : Config.dec (xorBytes x p) = Config.dec (xorBytes y p) :=
    xorBytes_right_injective ((Config.dec_length _ hxp).trans hc.symm) ((Config.dec_length _ hyp).trans hc.symm) h
  exact xorBytes_right_injective (hx.trans hp.symm) (hy.trans hp.symm) (Config.dec_injective hxp hyp hdec)

/-- Decoder loops over src blocks that first differ in block `k`, from equal accumulators, write different blocks `k`
(R116). -/
theorem decRun_block_ne {s u : State} (hs : GoodBuffers Config.params s) (hu : GoodBuffers Config.params u)
    (hlen : srcLen u = srcLen s) {l l' : Loop} (hl : l.Inv Config.params) (hl' : l'.Inv Config.params)
    (hc : l.c = l'.c) (hp : l.p = l'.p) {k : Nat} (hk : k < srcLen s / Config.blockSize)
    (hsrc : ∀ i < k, l.mem.block Config.blockSize (srcAddr s) i = l'.mem.block Config.blockSize (srcAddr u) i)
    (hne : l.mem.block Config.blockSize (srcAddr s) k ≠ l'.mem.block Config.blockSize (srcAddr u) k) :
    (bufferRun Config.params .dec s l).mem.block Config.blockSize (dstAddr s) k ≠
      (bufferRun Config.params .dec u l').mem.block Config.blockSize (dstAddr u) k := by
  intro heq
  have hP := Config.params_lawful
  obtain ⟨ec, ep⟩ := bufferRun_acc_congr hP hs hu hlen hl hc hp .dec hk.le hsrc
  obtain ⟨lc, lp⟩ := chainRun_lengths hP .dec (dstAddr s) (srcAddr s) k hl.c_length hl.p_length
  have outS := hs.bufferRun_block hP hl .dec hk
  have outU := hu.bufferRun_block hP hl' .dec (i := k) (hlen ▸ hk)
  rw [← ec, ← ep] at outU
  exact hne (chainStep_dec_injective (Memory.block_length ..) (Memory.block_length ..) lc lp
    (outS.symm.trans (heq.trans outU)))

/-! ### The ends of a TRANSFORM -/

/-- What a TRANSFORM of a constructed chain over good buffers leaves: the block loop from the accumulators, BLOCKS
advanced, CODE = OK (R100, R109). -/
abbrev transformed (P : Params) (s : State) : State :=
  let r := bufferRun P s.mode s (transformLoop s)
  { s with
    mem := r.mem
    prevC := r.c
    prevP := r.p
    blocks := s.blocks + BitVec.ofNat 64 (srcLen s / P.blockSize)
    status := okStatus s.status }

/-- TRANSFORM of a constructed chain over good buffers succeeds (R100, R109). -/
theorem exec_transform_good {s : State} (hm : s.mode ≠ .none) (hb : GoodBuffers Config.params s) :
    exec .transform s = .next (transformed Config.params s) := by
  rw [exec_eq, transform_good rfl hm hb]

/-- A TRANSFORM that succeeds had good buffers and ran the block loop over them (R100, R111). -/
theorem transform_ran {s t : State} (h : exec .transform s = .next t) (hk : codeField t.status = 0) :
    GoodBuffers Config.params s ∧ t = transformed Config.params s := by
  obtain ⟨rfl, hm, hb⟩ := transform_next h hk
  exact ⟨hb, transform_good rfl hm hb⟩

theorem codeField_okStatus (w : Word) : codeField (okStatus w) = 0 := by
  rw [← statusOk_eq, codeField_statusOk]

/-- BLOCKS advances by a count modulo `2^64` (R23). -/
theorem blocks_advance (b : Word) (n : Nat) : (b + BitVec.ofNat 64 n).toNat = (b.toNat + n) % 2 ^ 64 := by
  rw [BitVec.toNat_add, BitVec.toNat_ofNat, Nat.add_mod_mod]

/-- The decoder's TRANSFORM over what the encoder's TRANSFORM wrote, from equal accumulators: the bytes the encoder
read, and equal accumulators (R113, R114). -/
theorem transform_dec_enc {s t u v : State} (hs : (transformLoop s).Inv Config.params)
    (hu : (transformLoop u).Inv Config.params) (hms : s.mode = .enc) (hmu : u.mode = .dec) (hc : s.prevC = u.prevC)
    (hp : s.prevP = u.prevP) (ht : exec .transform s = .next t) (htk : codeField t.status = 0)
    (hv : exec .transform u = .next v) (hvk : codeField v.status = 0) (hlen : srcLen u = srcLen s)
    (hsrc : u.mem.readBytes (srcAddr u) (srcLen s) = t.mem.readBytes (dstAddr s) (srcLen s)) :
    v.mem.readBytes (dstAddr u) (srcLen s) = s.mem.readBytes (srcAddr s) (srcLen s) ∧
      v.prevC = t.prevC ∧ v.prevP = t.prevP := by
  obtain ⟨hbs, rfl⟩ := transform_ran ht htk
  obtain ⟨hbu, rfl⟩ := transform_ran hv hvk
  simp only [hms, hmu] at hsrc ⊢
  exact bufferRun_dec_enc Config.params_lawful hbs hbu hlen hs hu hc hp hsrc

/-- A construction of a chain of kind `m` that succeeds split the IV into the accumulators (R82, R84). -/
theorem construction_ran {i : Instr} {m : Mode} (hi : (i = .encInit ∧ m = .enc) ∨ (i = .decInit ∧ m = .dec))
    {s t : State} (h : exec i s = .next t) (hk : codeField t.status = 0) :
    t.mode = m ∧ t.prevC = s.mem.readBytes (initIvAddr s) Config.blockSize ∧
      t.prevP = s.mem.readBytes (initIvAddr s + Config.blockSize) Config.blockSize := by
  obtain ⟨rfl, hn⟩ := exec_next h
  have he := hn hk
  have iv := slice_readBytes_first s.mem (initIvAddr s) Config.blockSize
  have iv' := slice_readBytes_second s.mem (initIvAddr s) Config.blockSize
  rcases hi with ⟨rfl, rfl⟩ | ⟨rfl, rfl⟩ <;> rw [command_success he] <;> exact ⟨rfl, iv, iv'⟩

/-- With the alias check off, the other three buffer checks are all there are (R112). -/
theorem checkBuffers_unchecked (hal : P.aliasCheck = false) {d dl a al : Nat} (h0 : al ≠ 0)
    (hal' : al % P.blockSize = 0) (hsize : al ≤ dl) (hsrc : a + al ≤ 2 ^ 64) (hdst : d + dl ≤ 2 ^ 64) :
    checkBuffers P d dl a al = none := by
  rw [checkBuffers, if_neg (by tauto), if_neg (by omega), if_neg (by simp [inRange]; omega), if_neg (by simp [hal])]

/-! ### The statements -/

/-- Settles O10: the encoder's recurrence, for the loop that TRANSFORM runs. -/
theorem encoderWritesTheIgeChain : Obligations.EncoderWritesTheIgeChain := by
  intro s hs hm hb
  refine ⟨_, exec_transform_good (by simp [hm]) hb, codeField_okStatus _, ?_⟩
  have hP := Config.params_lawful
  have hl := hs.transformLoop
  simp only [hm]
  exact ⟨fun i hi => hb.encRun_block hP hl hi, hb.encRun_acc hP hl⟩

/-- Settles O11: the decoder's recurrence, for the loop that TRANSFORM runs. -/
theorem decoderWritesTheInverseChain : Obligations.DecoderWritesTheInverseChain := by
  intro s hs hm hb
  refine ⟨_, exec_transform_good (by simp [hm]) hb, codeField_okStatus _, ?_⟩
  have hP := Config.params_lawful
  have hl := hs.transformLoop
  simp only [hm]
  exact ⟨fun i hi => hb.decRun_block hP hl hi, hb.decRun_acc hP hl⟩

/-- Settles O12: the fields of `transformed`, and what no command writes. -/
theorem transformCompletion : Obligations.TransformCompletion := by
  intro s hs hm hb
  refine ⟨_, exec_transform_good hm hb, blocks_advance .., rfl, fun a ha => ?_⟩
  have h := command_read_outside Config.params_lawful .transform hs.engine.prevC_length hs.engine.prevP_length a
    fun _ => ha
  rwa [transform_good rfl hm hb] at h

/-- Settles O13: MODE NONE is the first check, and the buffer checks follow in their order. -/
theorem transformReportsItsFirstError : Obligations.TransformReportsItsFirstError := by
  refine fun s => ⟨fun hm => ?_, fun code hm hcode => ?_⟩
  · have he : commandError Config.params .transform s = some .notConfigured := if_pos hm
    rw [exec_eq, command_error he, raise_eq]
    rfl
  · obtain ⟨e, hbuf, rfl⟩ := checkBuffers_first (P := Config.params) rfl hcode
    have he : commandError Config.params .transform s = some e := (if_neg hm).trans hbuf
    rw [exec_eq, command_error he, raise_eq]

/-- Settles O14: the error reads MODE and the operands, and the loop the accumulators and the src bytes. -/
theorem transformIsDeterministic : Obligations.TransformIsDeterministic := by
  intro s u t v hs hu hm ht hv
  refine ⟨fun h0 h1 h2 h3 => ?_, fun htk hvk hc hp hn hlen hsrc => ?_⟩
  · have he : commandError Config.params .transform s = commandError Config.params .transform u :=
      commandError_congr (u := { u with op4 := s.op4, op5 := s.op5 }) hm h0 h1 h2 h3 rfl rfl
    rw [(exec_next ht).1, (exec_next hv).1, command_code, command_code, he]
  · obtain ⟨hbs, rfl⟩ := transform_ran ht htk
    obtain ⟨hbu, rfl⟩ := transform_ran hv hvk
    rw [← hlen] at hsrc ⊢
    simp only [← hm]
    obtain ⟨hdst, hc', hp'⟩ := bufferRun_congr Config.params_lawful hbs hbu hlen.symm hs.transformLoop
      hu.transformLoop hc hp s.mode hsrc
    exact ⟨hdst, hc', hp', by rw [hn, hlen]⟩

/-- Settles O15: both constructions split equal IVs into equal accumulators, from where the decoder undoes the
encoder. -/
theorem decodingUndoesEncoding : Obligations.DecodingUndoesEncoding := by
  intro s s₁ s₂ t u u₁ u₂ v hs₁ hsk hu₁ huk hiv hms hcs hps hws hmu hcu hpu hwu ht htk hv hvk hlen hsrc
  obtain ⟨ms, cs, ps⟩ := construction_ran (.inl ⟨rfl, rfl⟩) hs₁ hsk
  obtain ⟨mu, cu, pu⟩ := construction_ran (.inr ⟨rfl, rfl⟩) hu₁ huk
  rw [Nat.two_mul, Memory.readBytes_add, Memory.readBytes_add] at hiv
  obtain ⟨hivC, hivP⟩ := List.append_inj hiv (by simp)
  have hc : s₁.prevC = u₁.prevC := by rw [cs, cu, hivC]
  have hp : s₁.prevP = u₁.prevP := by rw [ps, pu, hivP]
  have hls : (transformLoop s₂).Inv Config.params := ⟨by simp [hcs, cs], by simp [hps, ps], hws⟩
  have hlu : (transformLoop u₂).Inv Config.params := ⟨by simp [hcu, cu], by simp [hpu, pu], hwu⟩
  obtain ⟨hdst, hc', hp'⟩ := transform_dec_enc hls hlu (hms.trans ms) (hmu.trans mu) (hcs.trans (hc.trans hcu.symm))
    (hps.trans (hp.trans hpu.symm)) ht htk hv hvk hlen hsrc
  exact ⟨hdst, hc, hp, hc', hp'⟩

/-- Settles O16: the invariant gives both loops their blocks, whatever was transformed before. -/
theorem chainsStayInStep : Obligations.ChainsStayInStep :=
  fun _ _ _ _ hs hu hms hmu hc hp ht htk hv hvk hlen hsrc =>
    transform_dec_enc hs.transformLoop hu.transformLoop hms hmu hc hp ht htk hv hvk hlen hsrc

/-- Settles O17: a loop of `n + k` blocks is one of `n` and one of `k` behind it. -/
theorem transformsConcatenate : Obligations.TransformsConcatenate := by
  intro s t s' v w a₀ a₁ a₂ a₃ b₁ b₃ ht htk hs' hdst hsrc hv hvk hlen hw hwk
  obtain ⟨hbs, rfl⟩ := transform_ran ht htk
  obtain ⟨-, rfl⟩ := transform_ran hv hvk
  obtain ⟨-, rfl⟩ := transform_ran hw hwk
  subst hs'
  have hstart : transformLoop { transformed Config.params s with op0 := a₀, op1 := a₁, op2 := a₂, op3 := a₃ } =
      bufferRun Config.params s.mode s (transformLoop s) := (chainRun_setFree _ _ _ _ _ s.free).symm
  have hrun := bufferRun_concat (u := { transformed Config.params s with op0 := a₀, op1 := a₁, op2 := a₂, op3 := a₃ })
    (w := { s with op1 := b₁, op3 := b₃ }) hbs hdst hsrc rfl rfl hlen s.mode (transformLoop s)
  rw [← hstart] at hrun
  have hblocks : s.blocks + BitVec.ofNat 64 (srcLen s / Config.params.blockSize) +
      BitVec.ofNat 64 (a₃.toNat / Config.params.blockSize) =
        s.blocks + BitVec.ofNat 64 (b₃.toNat / Config.params.blockSize) := by
    rw [hlen, hbs.blocks_add, BitVec.ofNat_add, BitVec.add_assoc]
  exact ⟨congrArg Loop.mem hrun, rfl, congrArg Loop.c hrun, congrArg Loop.p hrun, hblocks⟩

/-- Settles O18: up to block `k` the accumulators are equal, and a decoder step tells different src blocks apart. -/
theorem garbleStartsAtTheChangedBlock : Obligations.GarbleStartsAtTheChangedBlock := by
  intro s t u v k hs hu hms hmu hc hp ht htk hv hvk hlen hk hbefore hdiff
  obtain ⟨hbs, rfl⟩ := transform_ran ht htk
  obtain ⟨hbu, rfl⟩ := transform_ran hv hvk
  have hls := hs.transformLoop
  have hlu := hu.transformLoop
  simp only [hms, hmu]
  exact ⟨fun i hi => bufferRun_block_congr Config.params_lawful hbs hbu hlen hls hlu hc hp .dec hk.le hbefore hi,
    decRun_block_ne hbs hbu hlen hls hlu hc hp hk hbefore hdiff⟩

/-- Settles O44: no check stops the command, and no command writes outside its dst. -/
theorem uncheckedOverlapStaysInsideDst : Obligations.UncheckedOverlapStaysInsideDst := by
  intro P s hP hal hs h0 haligned hsize hsrc hdst _ _ _
  have hbuf := checkBuffers_unchecked hal h0 haligned hsize hsrc hdst
  have frame := fun i a ha => command_read_outside hP i hs.engine.prevC_length hs.engine.prevP_length a fun _ => ha
  refine ⟨fun hm => ?_, fun i hi hiv => ⟨?_, frame i⟩⟩
  · have he : commandError P .transform s = none := (if_neg hm).trans hbuf
    refine ⟨?_, ?_, ?_, ?_, frame .transform⟩
    · rw [command_success he, succeed_eq]
      rfl
    · rw [command_blocks he]
      exact blocks_advance ..
    all_goals
      rw [command_success he]
      rfl
  · have he : commandError P i s = none := by
      have hn : onceError P s = none := by rw [onceError, (checkIv_eq_none_iff ..).mpr hiv, hbuf]; rfl
      rcases hi with rfl | rfl <;> exact hn
    rw [command_success he, succeed_eq]
    rcases hi with rfl | rfl <;> rfl

end Sys2Proof.Machine
end

section
/-! PROOFS. The statements on the one-shot commands (42_one_shot): their errors in order and the chain from the IV (R130,
R131), the chain context they do not touch (R132), the commands they stand for (R133), and the round trip (R113). -/

namespace Sys2Proof.Machine

variable {P : Params} {i : Instr} {m : Mode}

/-! ### The error of a one-shot command -/

theorem commandError_once (hi : i = .encOnce ∨ i = .decOnce) (s : State) : commandError P i s = onceError P s := by
  rcases hi with rfl | rfl <;> rfl

/-- An IV error comes before every buffer error (R144). -/
theorem onceError_of_checkIv {s : State} {e : ErrorCode} (h : checkIv P (onceIvAddr s) (onceIvLen s) = some e) :
    onceError P s = some e := by
  rw [onceError, h, Option.some_or]

/-- After the IV checks come the buffer checks (R144). -/
theorem onceError_of_ivPassed {s : State} (h : checkIv P (onceIvAddr s) (onceIvLen s) = none) :
    onceError P s = checkBuffers P (dstAddr s) (dstLen s) (srcAddr s) (srcLen s) := by
  rw [onceError, h, Option.none_or]

/-- A one-shot command that fails changes STATUS alone (R143). -/
theorem exec_once_error (hi : i = .encOnce ∨ i = .decOnce) {s : State} {e : ErrorCode}
    (h : onceError Config.params s = some e) :
    exec i s = .next { s with status := errorStatus s.status (errorCode e).toNat } := by
  rw [exec_eq, command_error ((commandError_once hi s).trans h), raise_eq]

/-- The errors of a one-shot command in their order: code 1 for the IV's length, 7 for its range, then the first buffer
error (R130, R131, R144). -/
theorem exec_once_errors (hi : i = .encOnce ∨ i = .decOnce) (s : State) :
    (onceIvLen s ≠ 2 * Config.blockSize → exec i s = .next { s with status := errorStatus s.status 1 }) ∧
      (onceIvLen s = 2 * Config.blockSize → 2 ^ 64 < onceIvAddr s + 2 * Config.blockSize →
        exec i s = .next { s with status := errorStatus s.status 7 }) ∧
      ∀ code, GoodIv Config.params (onceIvAddr s) (onceIvLen s) → FirstBufferError Config.params s code →
        exec i s = .next { s with status := errorStatus s.status code } := by
  refine ⟨fun hl => ?_, fun hl hr => ?_, fun code hv hcode => ?_⟩
  · exact exec_once_error hi (onceError_of_checkIv (checkIv_length hl))
  · exact exec_once_error hi (onceError_of_checkIv (checkIv_range hl hr))
  · obtain ⟨e, hbuf, rfl⟩ := checkBuffers_first (P := Config.params) rfl hcode
    exact exec_once_error hi ((onceError_of_ivPassed ((checkIv_eq_none_iff ..).mpr hv)).trans hbuf)

/-! ### The transient chain -/

/-- The halves of the IV are blocks (R80), so the transient chain starts like a persistent one. -/
theorem onceLoop_inv {s : State} (h : s.mem.wf) : (onceLoop P s).Inv P :=
  ⟨Memory.readBytes_length .., Memory.readBytes_length .., h⟩

/-- Equal IV bytes seed equal accumulators (R130, R131). -/
theorem onceLoop_congr {s u : State} (h : s.mem.readBytes (onceIvAddr s) (2 * P.blockSize) =
    u.mem.readBytes (onceIvAddr u) (2 * P.blockSize)) :
    (onceLoop P s).c = (onceLoop P u).c ∧ (onceLoop P s).p = (onceLoop P u).p := by
  rw [Nat.two_mul, Memory.readBytes_add, Memory.readBytes_add] at h
  exact List.append_inj h (by simp)

/-- What a one-shot command of kind `m` over a good IV and good buffers leaves: the memory of the block loop from the IV
halves, CODE = OK (R130, R131). -/
abbrev onceDoneGood (P : Params) (m : Mode) (s : State) : State :=
  { s with mem := (bufferRun P m s (onceLoop P s)).mem, status := okStatus s.status }

/-- A one-shot command over a good IV and good buffers succeeds, and stores inside dst alone (R130, R131, R41). -/
theorem exec_once_good (hi : (i = .encOnce ∧ m = .enc) ∨ (i = .decOnce ∧ m = .dec)) {s : State}
    (hs : s.Inv Config.params) (hv : GoodIv Config.params (onceIvAddr s) (onceIvLen s))
    (hb : GoodBuffers Config.params s) :
    exec i s = .next (onceDoneGood Config.params m s) ∧ ∀ a, a < dstAddr s ∨ dstAddr s + srcLen s ≤ a →
      (onceDoneGood Config.params m s).mem.read a = s.mem.read a := by
  have hrun := once_good (P := Config.params) rfl hi hv hb
  refine ⟨by rw [exec_eq, hrun], fun a ha => ?_⟩
  have h := command_read_outside Config.params_lawful i hs.engine.prevC_length hs.engine.prevP_length a fun _ => ha
  rwa [hrun] at h

/-- A one-shot command that succeeds had good buffers and ran the block loop over them from the IV halves (R130,
R131). -/
theorem once_ran (hi : (i = .encOnce ∧ m = .enc) ∨ (i = .decOnce ∧ m = .dec)) {s t : State} (h : exec i s = .next t)
    (hk : codeField t.status = 0) : GoodBuffers Config.params s ∧ t = onceDoneGood Config.params m s := by
  obtain ⟨rfl, hn⟩ := exec_next h
  have hgood : GoodIv Config.params (onceIvAddr s) (onceIvLen s) ∧ GoodBuffers Config.params s := by
    rcases hi with ⟨rfl, -⟩ | ⟨rfl, -⟩ <;> exact (commandError_eq_none_iff (P := Config.params) rfl _ s).mp (hn hk)
  exact ⟨hgood.2, once_good rfl hi hgood.1 hgood.2⟩

/-! ### The construction and the TRANSFORM that a one-shot command stands for -/

/-- The IV operands of a one-shot command where a construction takes them (R63, R133). -/
abbrev ivMoved (s : State) : State := { s with op0 := s.op4, op1 := s.op5 }

/-- The engine after the construction of a chain of kind `m` over the moved IV operands, with OP0 and OP1 put back
(R133). -/
abbrev constructedForOnce (P : Params) (m : Mode) (s : State) : State :=
  { succeed (construct P m (ivMoved s)) with op0 := s.op0, op1 := s.op1 }

/-- Once the IV checks pass, a one-shot command and the TRANSFORM of the constructed chain meet the same first error
(R133, R144). -/
theorem transformError_constructedForOnce (hm : m ≠ .none) {s : State}
    (hv : checkIv P (onceIvAddr s) (onceIvLen s) = none) :
    transformError P (constructedForOnce P m s) = onceError P s := by
  rw [onceError_of_ivPassed hv]
  exact if_neg hm

/-- Once the IV checks pass, a one-shot command leaves the memory and code of the TRANSFORM of the constructed chain
(R133). -/
theorem once_eq_transform (hi : (i = .encOnce ∧ m = .enc) ∨ (i = .decOnce ∧ m = .dec)) {s : State}
    (hv : checkIv P (onceIvAddr s) (onceIvLen s) = none) :
    (commandWith P i s).mem = (commandWith P .transform (constructedForOnce P m s)).mem ∧
      codeField (commandWith P i s).status =
        codeField (commandWith P .transform (constructedForOnce P m s)).status := by
  have hm : m ≠ .none := by rcases hi with ⟨-, rfl⟩ | ⟨-, rfl⟩ <;> decide
  have he : commandError P .transform (constructedForOnce P m s) = commandError P i s :=
    (transformError_constructedForOnce hm hv).trans (commandError_once (hi.imp And.left And.left) s).symm
  refine ⟨?_, by rw [command_code, command_code, he]⟩
  cases hn : commandError P i s with
  | some e =>
    rw [command_error hn, command_error (he.trans hn)]
    rfl
  | none =>
    rw [command_success hn, command_success (he.trans hn)]
    rcases hi with ⟨rfl, rfl⟩ | ⟨rfl, rfl⟩ <;> rfl

/-- A construction over the moved IV operands runs the IV checks of the one-shot command, and succeeds as
`constructedForOnce` says (R82, R84, R133). -/
theorem construction_ivMoved (hi : (i = .encInit ∧ m = .enc) ∨ (i = .decInit ∧ m = .dec)) (s : State) :
    commandError P i (ivMoved s) = checkIv P (onceIvAddr s) (onceIvLen s) ∧
      commandEffect P i (ivMoved s) = construct P m (ivMoved s) := by
  rcases hi with ⟨rfl, rfl⟩ | ⟨rfl, rfl⟩ <;> exact ⟨rfl, rfl⟩

/-- A one-shot command against its construction and TRANSFORM, of either kind (R133). -/
theorem once_eq_construct_transform {once init : Instr}
    (ho : (once = .encOnce ∧ m = .enc) ∨ (once = .decOnce ∧ m = .dec))
    (hi : (init = .encInit ∧ m = .enc) ∨ (init = .decInit ∧ m = .dec)) {s t u : State}
    (ht : exec once s = .next t) (hu : exec init (ivMoved s) = .next u) :
    (codeField u.status ≠ 0 → codeField t.status = codeField u.status ∧ t.mem = s.mem) ∧
      (codeField u.status = 0 → ∀ v, exec .transform { u with op0 := s.op0, op1 := s.op1 } = .next v →
        t.mem = v.mem ∧ codeField t.status = codeField v.status) := by
  obtain ⟨rfl, -⟩ := exec_next ht
  obtain ⟨rfl, hok⟩ := exec_next hu
  obtain ⟨herr, heff⟩ := construction_ivMoved (P := Config.params) hi s
  refine ⟨fun hk => ?_, fun hk v hv => ?_⟩
  · obtain ⟨e, he⟩ := Option.ne_none_iff_exists'.mp (mt (command_ok_iff ..).mpr hk)
    have honce : commandError Config.params once s = some e :=
      (commandError_once (ho.imp And.left And.left) s).trans (onceError_of_checkIv (herr.symm.trans he))
    rw [command_error he, command_error honce]
    exact ⟨by simp only [raise_status, codeField_statusError], rfl⟩
  · obtain ⟨rfl, -⟩ := exec_next hv
    rw [command_success (hok hk), heff]
    exact once_eq_transform ho (herr.symm.trans (hok hk))

/-! ### The chain context -/

/-- A one-shot command does the same whatever the chain context and RESULT are, and leaves them (R132). -/
theorem once_setChain_setResult (hi : i = .encOnce ∨ i = .decOnce) (s : State) (m : Mode) (c p : Bytes) (n r : Word) :
    commandWith P i ((s.setChain m c p n).setResult r) = ((commandWith P i s).setChain m c p n).setResult r := by
  have he : commandError P i ((s.setChain m c p n).setResult r) = commandError P i s := by
    rw [commandError_once hi, commandError_once hi]
    rfl
  cases hn : commandError P i s with
  | some e =>
    rw [command_error hn, command_error (he.trans hn)]
    rfl
  | none =>
    rw [command_success hn, command_success (he.trans hn)]
    rcases hi with rfl | rfl <;> rfl

/-! ### The statements -/

/-- Settles O19: the errors of a one-shot command, and the encoder's recurrence from the IV halves. -/
theorem encOnceFollowsItsPseudocode : Obligations.EncOnceFollowsItsPseudocode := by
  refine ⟨decode_encode .encOnce, fun s hs => ?_⟩
  obtain ⟨hlength, hrange, hbuffers⟩ := exec_once_errors (.inl rfl) s
  refine ⟨hlength, hrange, hbuffers, fun hv hb => ?_⟩
  obtain ⟨hrun, hframe⟩ := exec_once_good (.inl ⟨rfl, rfl⟩) hs hv hb
  exact ⟨_, hrun, rfl, fun _ hi => hb.encRun_block Config.params_lawful (onceLoop_inv hs.mem_wf) hi, hframe⟩

/-- Settles O20: the errors of a one-shot command, and the decoder's recurrence from the IV halves. -/
theorem decOnceFollowsItsPseudocode : Obligations.DecOnceFollowsItsPseudocode := by
  refine ⟨decode_encode .decOnce, fun s hs => ?_⟩
  obtain ⟨hlength, hrange, hbuffers⟩ := exec_once_errors (.inr rfl) s
  refine ⟨hlength, hrange, hbuffers, fun hv hb => ?_⟩
  obtain ⟨hrun, hframe⟩ := exec_once_good (.inr ⟨rfl, rfl⟩) hs hv hb
  exact ⟨_, hrun, rfl, fun _ hi => hb.decRun_block Config.params_lawful (onceLoop_inv hs.mem_wf) hi, hframe⟩

/-- Settles O22: the IV checks are the construction's, and then both run the buffer checks and the same block loop. -/
theorem oneShotEqualsConstructThenTransform : Obligations.OneShotEqualsConstructThenTransform := by
  intro once init s t u hpair ht hu
  rcases hpair with ⟨rfl, rfl⟩ | ⟨rfl, rfl⟩
  · exact once_eq_construct_transform (.inl ⟨rfl, rfl⟩) (.inl ⟨rfl, rfl⟩) ht hu
  · exact once_eq_construct_transform (.inr ⟨rfl, rfl⟩) (.inr ⟨rfl, rfl⟩) ht hu

/-- Settles O23: equal IV bytes seed equal accumulators, from where the decoder's loop undoes the encoder's. -/
theorem oneShotRoundTrip : Obligations.OneShotRoundTrip := by
  intro s t u v hs hu ht htk hv hvk hiv hlen hsrc
  obtain ⟨hbs, rfl⟩ := once_ran (.inl ⟨rfl, rfl⟩) ht htk
  obtain ⟨hbu, rfl⟩ := once_ran (.inr ⟨rfl, rfl⟩) hv hvk
  obtain ⟨hc, hp⟩ := onceLoop_congr (P := Config.params) hiv
  exact (bufferRun_dec_enc Config.params_lawful hbs hbu hlen (onceLoop_inv hs) (onceLoop_inv hu) hc hp hsrc).1

/-- Settles O21: a one-shot command commutes with every change of the chain context and RESULT, the one that changes
nothing among them. -/
theorem oneShotKeepsTheChainContext : Obligations.OneShotKeepsTheChainContext := by
  intro i s t m c p n r hi h
  obtain ⟨rfl, -⟩ := exec_next h
  refine ⟨?_, (exec_eq ..).trans (congrArg Host.Outcome.next (once_setChain_setResult hi s m c p n r))⟩
  have hkept := once_setChain_setResult (P := Config.params) hi s s.mode s.prevC s.prevP s.blocks s.result
  rw [State.setChain_self, State.setResult_self] at hkept
  rw [hkept]
  exact ⟨rfl, rfl, rfl, rfl, rfl⟩

end Sys2Proof.Machine
end

section
/-! PROOFS. The statements on exceptions (60_exceptions): STATUS after every access, the code of every CMD write (R140,
R144, R145), and ANY_ERROR along a run (R146, R180). -/

namespace Sys2Proof.Machine

variable {P : Params}

/-! ### STATUS at the end of a CMD write -/

/-- STATUS after a command with the first error `err`: OK if there is none (R143). -/
def endStatus (err : Option ErrorCode) (status : Word) : Word :=
  match err with
  | none => statusOk status
  | some e => statusError status e

theorem codeField_endStatus (err : Option ErrorCode) (w : Word) :
    codeField (endStatus err w) = (err.map errorCode).getD 0 := by
  cases err <;> simp [endStatus]

theorem anyErrorField_endStatus (err : Option ErrorCode) (w : Word) :
    anyErrorField (endStatus err w) = (err.isSome || anyErrorField w) := by
  cases err <;> simp [endStatus]

/-- A code other than OK goes with ANY_ERROR = 1 (R143, R146). -/
theorem anyErrorField_endStatus_of_code {err : Option ErrorCode} {w : Word} (h : codeField (endStatus err w) ≠ 0) :
    anyErrorField (endStatus err w) = true := by
  cases err with
  | none => exact absurd (codeField_statusOk w) h
  | some e => exact anyErrorField_statusError w e

theorem command_status (i : Instr) (s : State) :
    (commandWith P i s).status = endStatus (commandError P i s) s.status := by
  cases h : commandError P i s with
  | none => rw [command_success h, succeed_status, commandEffect_status, endStatus]
  | some e => rw [command_error h, raise_status, endStatus]

/-- A race shows in STATUS no more than in the command's errors (R53, R145). -/
theorem racedRun_status {f : Foreign} {i : Instr} {s t : State} (h : racedRun Config.params exec f i s = .next t) :
    t.status = endStatus (commandError Config.params i s) s.status := by
  rcases racedRun_cases h with rfl | rfl
  · exact command_status i s
  · rw [afterRace_status, racedCommandWith_frame, ← commandError_setMem i s]
    exact command_status i _

/-- The first error of a CMD write: the command's, or that the word is no command (R141, R144). -/
def wordError (w : Word) (s : State) : Option ErrorCode :=
  match decode w with
  | .ok i => commandError Config.params i s
  | .error _ => some .illegalCommand

theorem wordResult_status (w : Word) (s : State) :
    (wordResult w s).status = endStatus (wordError w s) s.status := by
  cases h : decode w with
  | ok i => simp only [wordResult, wordError, h, command_status]
  | error r => simp only [wordResult, wordError, h, raise_status, endStatus]

theorem wordResult_illegal {w : Word} (h : w.toNat / 2 ^ 8 ≠ 0 ∨ w.toNat % 2 ^ 8 = 0x00 ∨ 0x07 ≤ w.toNat % 2 ^ 8)
    (s : State) : wordResult w s = raise .illegalCommand s := by
  obtain ⟨r, hr⟩ := (decode_error_iff w).mpr h
  rw [wordResult, hr]

/-- A step over a CMD write (R25, R141). -/
theorem step_cmd {s : State} {w : Word} {rest : List Access} (hb : s.bus = .regWrite 0x00 64 w :: rest) :
    step s = .next (wordResult w (s.setBus rest)) :=
  (step_access hb).trans ((perform_cmd exec w _).trans (runWord_exec w _))

/-! ### The code as the first error of the check order -/

/-- Two groups of checks in order report the first group's code, or else the second's (R144). -/
theorem code_or (a b : Option ErrorCode) :
    (((a.or b).map errorCode).getD 0).toNat =
      if ((a.map errorCode).getD 0).toNat ≠ 0 then ((a.map errorCode).getD 0).toNat
      else ((b.map errorCode).getD 0).toNat := by
  cases a with
  | none => rfl
  | some e => exact (if_pos fun h => errorCode_ne_zero e (BitVec.eq_of_toNat_eq h)).symm

theorem transformError_code (hP : P.aliasCheck = true) (s : State) :
    (((transformError P s).map errorCode).getD 0).toNat = if s.mode = .none then 5 else firstBufferCode P s := by
  unfold transformError
  split
  · rfl
  · exact checkBuffers_code hP s

theorem onceError_code (hP : P.aliasCheck = true) (s : State) :
    (((onceError P s).map errorCode).getD 0).toNat =
      if firstIvCode P (onceIvAddr s) (onceIvLen s) ≠ 0 then firstIvCode P (onceIvAddr s) (onceIvLen s)
      else firstBufferCode P s := by
  rw [onceError, code_or, checkIv_code, checkBuffers_code hP]

/-! ### STATUS along a run -/

/-- Only a CMD write, plain or raced, and a power-on reset reach STATUS (R26). -/
theorem perform_status {a : Access} {s t : State} (h : perform Config.params exec a s = .next t) :
    t.status = s.status ∨ (∃ err, t.status = endStatus err s.status) ∨ a = .powerOn := by
  rcases perform_cases h with
    ⟨i, rfl⟩ | rfl | ⟨r, w, rfl⟩ | rfl | ⟨x, rfl⟩ | ⟨x, v, -, -, rfl⟩ | ⟨i, f, hr⟩ | ⟨ha, -⟩
  · exact .inr (.inl ⟨_, command_status i s⟩)
  · exact .inr (.inl ⟨some .illegalCommand, rfl⟩)
  · exact .inl (writeReg_status ..)
  · exact .inl rfl
  · exact .inl rfl
  · exact .inl rfl
  · exact .inr (.inl ⟨_, racedRun_status hr.symm⟩)
  · exact .inr (.inr ha)

/-- No step but a power-on reset clears ANY_ERROR (R146). -/
theorem step_anyError {s t : State} (h : step s = .next t) (he : anyErrorField s.status = true) :
    anyErrorField t.status = true ∨ ∃ rest, s.bus = .powerOn :: rest := by
  cases hb : s.bus with
  | nil =>
    rw [step_idle hb] at h
    cases h
    exact .inl he
  | cons a rest =>
    rw [step_access hb] at h
    rcases perform_status h with hs | ⟨err, hs⟩ | rfl
    · exact .inl (hs ▸ he)
    · rw [hs, anyErrorField_endStatus]
      exact .inl (Bool.or_eq_true_iff.mpr (.inr he))
    · exact .inr ⟨rest, rfl⟩

/-- A run that ends took its first step and went on from there. -/
theorem run_succ_cases {n : Nat} {s t : Sys2Proof.core.State} (h : Sys2Proof.core.run (n + 1) s = .next t) :
    ∃ s', step s = .next s' ∧ Sys2Proof.core.run n s' = .next t := by
  rw [Host.Core.run] at h
  split at h
  · next s' hstep => exact ⟨s', hstep, h⟩
  · cases h
  · cases h

/-- A run goes on from where its first `k` steps led. -/
theorem run_add {k : Nat} {s u : State} (h : Sys2Proof.core.run k s = .next u) (m : Nat) :
    Sys2Proof.core.run (k + m) s = Sys2Proof.core.run m u := by
  induction k generalizing s with
  | zero =>
    cases h
    rw [Nat.zero_add]
  | succ k ih =>
    obtain ⟨s', hstep, hrest⟩ := run_succ_cases h
    rw [Nat.add_right_comm]
    exact (run_succ hstep (k + m)).trans (ih hrest)

/-- What every step keeps, a run keeps. -/
theorem run_keeps {p : State → Prop} (hp : ∀ s t, p s → step s = .next t → p t) {n : Nat} {s t : State} (hs : p s)
    (h : Sys2Proof.core.run n s = .next t) : p t := by
  induction n generalizing s with
  | zero =>
    cases h
    exact hs
  | succ n ih =>
    obtain ⟨s', hstep, hrest⟩ := run_succ_cases h
    exact ih (hp s s' hs hstep) hrest

/-- A step puts no power-on reset into the queue (log 6). -/
theorem step_noPowerOn {s t : State} (hn : Access.powerOn ∉ s.bus) (h : step s = .next t) :
    Access.powerOn ∉ t.bus := by
  rw [step_bus h]
  exact fun hm => hn (List.mem_of_mem_tail hm)

/-- Without a power-on reset, ANY_ERROR stays 1 along a run (R146, R180). -/
theorem run_anyError {n : Nat} {s t : State} (hn : Access.powerOn ∉ s.bus) (he : anyErrorField s.status = true)
    (h : Sys2Proof.core.run n s = .next t) : anyErrorField t.status = true := by
  refine (run_keeps (p := fun s => Access.powerOn ∉ s.bus ∧ anyErrorField s.status = true) ?_ ⟨hn, he⟩ h).2
  rintro s t ⟨hn, he⟩ hstep
  refine ⟨step_noPowerOn hn hstep, (step_anyError hstep he).resolve_right ?_⟩
  rintro ⟨rest, hb⟩
  simp [hb] at hn

/-! ### The statements -/

/-- Settles O24: a code other than OK is that of a first error, and taking an error changes STATUS alone. -/
theorem failedCommandChangesOnlyStatus : Obligations.FailedCommandChangesOnlyStatus := by
  intro i s t h hk
  obtain ⟨rfl, -⟩ := exec_next h
  rcases command_cases (P := Config.params) i s with ⟨e, -, hc⟩ | ⟨hn, -⟩
  · rw [hc, raise_status, codeField_statusError, raise_eq]
  · exact absurd ((command_ok_iff i s).mpr hn) hk

/-- Settles O25: the code is that of the command's first error, read check by check. -/
theorem codesFollowTheCheckOrder : Obligations.CodesFollowTheCheckOrder := by
  constructor
  · intro i s t h
    obtain ⟨rfl, -⟩ := exec_next h
    rw [command_code]
    cases i with
    | encInit => exact checkIv_code ..
    | decInit => exact checkIv_code ..
    | blocksize => rfl
    | transform => exact transformError_code rfl s
    | encOnce => exact onceError_code rfl s
    | decOnce => exact onceError_code rfl s
  · intro s w rest hb hw
    refine ⟨_, step_cmd hb, ?_⟩
    rw [wordResult_illegal hw, raise_status, codeField_statusError, errorCode]

/-- Settles O26: the code is that of the word's first error, which reads the operands and MODE alone. -/
theorem errorsDependOnOperandsAndMode : Obligations.ErrorsDependOnOperandsAndMode := by
  intro s u w rest rest' hs hu hm h0 h1 h2 h3 h4 h5
  have herr : wordError w (s.setBus rest) = wordError w (u.setBus rest') := by
    unfold wordError
    split
    · exact commandError_congr hm h0 h1 h2 h3 h4 h5
    · rfl
  refine ⟨_, _, step_cmd hs, step_cmd hu, ?_⟩
  simp only [wordResult_status, codeField_endStatus, herr]

/-- Settles O27: STATUS after a CMD write is `endStatus`, and only a power-on reset clears ANY_ERROR. -/
theorem anyErrorIsSticky : Obligations.AnyErrorIsSticky := by
  refine ⟨fun s t w rest hb h hk => ?_, fun s t h he hn => ?_, fun s t rest hb h => ?_⟩
  · rw [step_cmd hb] at h
    cases h
    rw [wordResult_status] at hk ⊢
    exact anyErrorField_endStatus_of_code hk
  · exact (step_anyError h he).resolve_left (by simp [hn])
  · rw [step_access hb] at h
    cases h
    exact (by decide : anyErrorField 0 = false)

/-- Settles O28: an ANY_ERROR of 1 on the way would still be 1 at the end, and by the invariant ANY_ERROR = 0 goes with
CODE = OK. -/
theorem noErrorAtTheEndMeansNoErrorBefore : Obligations.NoErrorAtTheEndMeansNoErrorBefore := by
  intro n k s u t hinv hpow hkn hu ht hend
  obtain ⟨m, rfl⟩ := Nat.exists_eq_add_of_le hkn
  have hrest : Sys2Proof.core.run m u = .next t := (run_add hu m).symm.trans ht
  have hpow' : Access.powerOn ∉ u.bus := run_keeps (fun _ _ => step_noPowerOn) hpow hu
  have hinv' : u.Inv Config.params := run_keeps stepKeepsTheInvariant hinv hu
  have hzero : anyErrorField u.status = false := by
    by_contra he
    have hset := run_anyError hpow' (Bool.eq_true_of_not_eq_false he) hrest
    simp [hset] at hend
  refine ⟨hzero, ?_⟩
  by_contra hk
  have hset := hinv'.engine.error_sticky hk
  simp [hset] at hzero

/-- Settles O5: the word decodes to no command, so the step takes ILLEGAL_COMMAND. -/
theorem illegalWordChangesOnlyStatus : Obligations.IllegalWordChangesOnlyStatus := by
  intro s w rest hb hw
  rw [step_cmd hb, wordResult_illegal hw, raise_eq]
  rfl

end Sys2Proof.Machine
end

section
/-! PROOFS. Reset (70_reset_and_hazards R170, 10_state R34): the registers of the reset engine, the step over a power-on
reset, and O34. -/

namespace Sys2Proof.Machine

@[simp] theorem Engine.reset_prevC_length (b k : Nat) : (Engine.reset b k).prevC.length = b :=
  Config.freeBytes_length k b

@[simp] theorem Engine.reset_prevP_length (b k : Nat) : (Engine.reset b k).prevP.length = b :=
  Config.freeBytes_length (k + 1) b

/-- A step over a power-on reset answers in every state: the reset engine over the memory and the host's side as they
were (R170). -/
theorem step_powerOn {s : State} {rest : List Access} (h : s.bus = .powerOn :: rest) :
    step s = .next (powerOn Config.params (s.setBus rest)) :=
  step_access h

/-- Settles O34: the reset state and a power-on reset have the registers of `Engine.reset`, whose accumulators are
free values of one block; with an empty queue the step is idle. -/
theorem resetPutsEveryRegisterToItsValue : Obligations.ResetPutsEveryRegisterToItsValue := by
  refine ⟨⟨rfl, rfl, rfl, rfl, rfl, rfl, rfl, rfl, rfl, rfl⟩, fun s rest hb => ?_, fun _ => step_idle⟩
  have hc := Engine.reset_prevC_length Config.blockSize s.free
  have hp := Engine.reset_prevP_length Config.blockSize s.free
  exact ⟨_, step_powerOn hb, rfl, rfl, rfl, rfl, rfl, rfl, rfl, rfl, rfl, rfl, hc, hp, rfl, rfl⟩

end Sys2Proof.Machine
end
